-- ==== Sys2Proof/Word.lean ====
section
/-! DEFINITION. The engine's value types: bytes, words, blocks, command words (00_scope.md R6). -/

namespace Sys2Proof

/-- A byte: an unsigned 8-bit value (00_scope.md R6). -/
abbrev Byte := BitVec 8

/-- A word: an unsigned 32-bit value (00_scope.md R5 `WORD_BITS`, R6). -/
abbrev Word := BitVec 32

/-- A command word of 10 bits (30_encoding.md R70, R75). -/
abbrev CmdWord := BitVec 10

/-- The hash accumulator's shape: eight words (00_scope.md R5 `STATE_WORDS`, 10_state.md R21). -/
abbrev Chain := Vector Word 8

/-- A block: 64 bytes, byte 0 the earliest of the message stream (00_scope.md R5 `BLOCK_BYTES`, 10_state.md R22). -/
abbrev Block := Vector Byte 64

/-- A digest: 32 bytes (00_scope.md R5 `DIGEST_BYTES`). -/
abbrev Digest := Vector Byte 32

end Sys2Proof
end

