-- ==== Sys2Proof/Machine/Operands.lean ====
section
/-! DEFINITION. Operand forms and byte order: the two fields of a command word (30_encoding.md R70, R72) and the three
big-endian conversions (20_memory.md R51, R52, R53). -/

namespace Sys2Proof.Machine

/-- The operation code `cmd[9:8]` (30_encoding.md R70). -/
def opField (cmd : CmdWord) : BitVec 2 := cmd.extractLsb' 8 2

/-- The data field `cmd[7:0]` (30_encoding.md R70). -/
def dataField (cmd : CmdWord) : Byte := cmd.extractLsb' 0 8

/-- The only operand: the byte of `ABSORB`, `cmd[7:0]`, unsigned, without extension, scaling or shift (30_encoding.md R72). -/
def absorbOperand (cmd : CmdWord) : Byte := dataField cmd

/-- Four bytes as a word, the first the most significant (20_memory.md R51). -/
def wordOfBytes (b0 b1 b2 b3 : Byte) : Word := b0 ++ b1 ++ b2 ++ b3

/-- `be32(w)`: the four bytes of a word, most significant first (00_scope.md R7, 20_memory.md R53). -/
def be32 (w : Word) : Vector Byte 4 :=
  #v[w.extractLsb' 24 8, w.extractLsb' 16 8, w.extractLsb' 8 8, w.extractLsb' 0 8]

/-- `be64(n)`: the eight bytes of a 64-bit value, most significant first (00_scope.md R7, 20_memory.md R52). -/
def be64 (n : BitVec 64) : Vector Byte 8 :=
  #v[n.extractLsb' 56 8, n.extractLsb' 48 8, n.extractLsb' 40 8, n.extractLsb' 32 8,
     n.extractLsb' 24 8, n.extractLsb' 16 8, n.extractLsb' 8 8, n.extractLsb' 0 8]

/-- The digest's bytes: each word of the accumulator big-endian, in word order (20_memory.md R53, 44_finalize.md R166). -/
def digestBytes (h : Chain) : Digest := Vector.ofFn fun k => (be32 h[k.val / 4])[k.val % 4]

/-- The digest on a 256-bit bus: `H[0] ++ H[1] ++ ... ++ H[7]` (20_memory.md R53). -/
def digestWide (h : Chain) : BitVec 256 :=
  h[0] ++ h[1] ++ h[2] ++ h[3] ++ h[4] ++ h[5] ++ h[6] ++ h[7]

end Sys2Proof.Machine
end

