-- ==== Sys2Proof/Syntax.lean ====
section
/-! DEFINITION. The command set: one constructor for each row of spec/opcode_table.json (30_encoding.md R71). -/

namespace Sys2Proof

/-- A command of the engine (30_encoding.md R71, R74). -/
inductive Instr where
  /-- `INIT`: create a fresh engine (40_init_absorb.md R90). -/
  | init
  /-- `ABSORB v`: append the byte `v` to the message (40_init_absorb.md R92); every byte is legal (30_encoding.md R72). -/
  | absorb (v : Byte)
  /-- `FINALIZE`: end the message and present the digest (44_finalize.md R160, R171). -/
  | finalize
deriving DecidableEq, Repr

end Sys2Proof
end

