-- ==== Sys2Proof/Decode.lean ====
section
/-! DEFINITION. The decoder, total on 10-bit words (30_encoding.md R74), the encoder (R76), and the opcode table's rows (R71). -/

namespace Sys2Proof

open Sys2Proof.Machine (opField dataField absorbOperand)

/-- Why a command word is reserved: the three ranges of 30_encoding.md R73. -/
inductive DecodeError where
  /-- `op = 0b00`: `0x000`..`0x0FF`. -/
  | reservedOp
  /-- `INIT` with `data ≠ 0`: `0x101`..`0x1FF`. -/
  | initDataNonzero
  /-- `FINALIZE` with `data ≠ 0`: `0x301`..`0x3FF`. -/
  | finalizeDataNonzero
deriving DecidableEq, Repr

/-- The decoder of 30_encoding.md R74; it reads no state. -/
def decode (cmd : CmdWord) : Except DecodeError Instr :=
  if opField cmd = 0b01#2 then
    if dataField cmd = 0 then .ok .init else .error .initDataNonzero
  else if opField cmd = 0b10#2 then .ok (.absorb (absorbOperand cmd))
  else if opField cmd = 0b11#2 then
    if dataField cmd = 0 then .ok .finalize else .error .finalizeDataNonzero
  else .error .reservedOp

/-- The command word of a command, `op` then `data` (30_encoding.md R70, R71). -/
def encode : Instr → CmdWord
  | .init => 0b01#2 ++ 0x00#8
  | .absorb v => 0b10#2 ++ v
  | .finalize => 0b11#2 ++ 0x00#8

/-- A row of the opcode table: a word selects it when `cmd ∧ mask = bits` (30_encoding.md R71). -/
structure OpcodeRow where
  mnemonic : String
  bits : CmdWord
  mask : CmdWord
deriving DecidableEq, Repr

/-- Whether a word selects a row (30_encoding.md R71). -/
def OpcodeRow.selects (r : OpcodeRow) (cmd : CmdWord) : Bool := cmd &&& r.mask == r.bits

/-- The three rows of the opcode table (30_encoding.md R71). -/
def opcodeRows : List OpcodeRow :=
  [⟨"INIT", 0x100, 0x3FF⟩, ⟨"ABSORB", 0x200, 0x300⟩, ⟨"FINALIZE", 0x300, 0x3FF⟩]

/-- A command's name in the opcode table (30_encoding.md R71). -/
def mnemonic : Instr → String
  | .init => "INIT"
  | .absorb _ => "ABSORB"
  | .finalize => "FINALIZE"

/-- The command word a table word denotes: its low `nbits` bits, if they fit the port's ten wires (log entry 10). -/
def tableCommand (nbits w : Nat) : Option CmdWord :=
  if w % 2 ^ nbits < 1024 then some (BitVec.ofNat 10 (w % 2 ^ nbits)) else none

/-- The command the decoder reads from a table word; `none` where it refuses. -/
def decodeTableWord (nbits w : Nat) : Option Instr :=
  match tableCommand nbits w with
  | none => none
  | some cmd =>
    match decode cmd with
    | .ok i => some i
    | .error _ => none

end Sys2Proof
end

