-- ==== Sys2Proof/Machine/WordFunctions.lean ====
section
/-! DEFINITION. The 32-bit word functions, the rotator and adder tree (41_word_functions.md R110 to R119). Pure and total. -/

namespace Sys2Proof.Machine

/-- Addition modulo 2^32 (41_word_functions.md R110). -/
def add32 (x y : Word) : Word := x + y

/-- Rotate right (41_word_functions.md R111). -/
def rotr (x : Word) (n : Nat) : Word := (x >>> n) ||| (x <<< (32 - n))

/-- Logical shift right (41_word_functions.md R112). -/
def shr (x : Word) (n : Nat) : Word := x >>> n

/-- Bitwise exclusive-or (41_word_functions.md R113). -/
def xor32 (x y : Word) : Word := x ^^^ y

/-- Bitwise and (41_word_functions.md R113). -/
def and32 (x y : Word) : Word := x &&& y

/-- Bitwise complement within 32 bits (41_word_functions.md R113). -/
def not32 (x : Word) : Word := ~~~x

/-- The schedule function σ0 (41_word_functions.md R114). -/
def smallSigma0 (x : Word) : Word := xor32 (xor32 (rotr x 7) (rotr x 18)) (shr x 3)

/-- The schedule function σ1 (41_word_functions.md R115). -/
def smallSigma1 (x : Word) : Word := xor32 (xor32 (rotr x 17) (rotr x 19)) (shr x 10)

/-- The round function Σ0 (41_word_functions.md R116). -/
def bigSigma0 (x : Word) : Word := xor32 (xor32 (rotr x 2) (rotr x 13)) (rotr x 22)

/-- The round function Σ1 (41_word_functions.md R117). -/
def bigSigma1 (x : Word) : Word := xor32 (xor32 (rotr x 6) (rotr x 11)) (rotr x 25)

/-- Choose (41_word_functions.md R118). -/
def ch (e f g : Word) : Word := xor32 (and32 e f) (and32 (not32 e) g)

/-- Majority (41_word_functions.md R119). -/
def maj (a b c : Word) : Word := xor32 (xor32 (and32 a b) (and32 a c)) (and32 b c)

end Sys2Proof.Machine
end

