-- ==== Sys2Proof/Machine/Schedule.lean ====
section
/-! DEFINITION. The message schedule expander (42_schedule.md R130 to R133). -/

namespace Sys2Proof.Machine

/-- `parse`: a block as sixteen big-endian words (42_schedule.md R130). -/
def parse (B : Block) : Vector Word 16 :=
  Vector.ofFn fun j => wordOfBytes B[4 * j.val] B[4 * j.val + 1] B[4 * j.val + 2] B[4 * j.val + 3]

/-- A further word of the schedule from the words 16, 15, 7 and 2 places before it (42_schedule.md R131). -/
def nextWord (w16 w15 w7 w2 : Word) : Word :=
  add32 (add32 (add32 w16 (smallSigma0 w15)) w7) (smallSigma1 w2)

/-- `expand`, as far as its first `n` further words: with `i = n + 16`, `w[i-16]` is `w[n]` (42_schedule.md R131). -/
def expandTo (w : Vector Word 16) : (n : Nat) → Vector Word (16 + n)
  | 0 => w
  | n + 1 =>
    let p := expandTo w n
    p.push (nextWord p[n] p[n + 1] p[n + 9] p[n + 14])

/-- `schedule(B) = expand(parse(B))`, 64 words (42_schedule.md R133). -/
def schedule (B : Block) : Vector Word 64 := expandTo (parse B) 48

/-- The sliding window: from `w[i-16..i-1]` to `w[i-15..i]` (42_schedule.md R132). -/
def slideWindow (r : Vector Word 16) : Vector Word 16 :=
  #v[r[1], r[2], r[3], r[4], r[5], r[6], r[7], r[8], r[9], r[10], r[11], r[12], r[13], r[14], r[15],
     nextWord r[0] r[1] r[9] r[14]]

end Sys2Proof.Machine
end

