-- ==== Sys2Proof/Machine/Compress.lean ====
section
/-! DEFINITION. The 64-round compression function (43_compress.md R140 to R150), and the iterative form with a sliding window
that 00_scope.md R9 and 42_schedule.md R132 allow an implementation. -/

namespace Sys2Proof.Machine

/-- The eight working variables (10_state.md R27); they exist only during a compression (log entry 6). -/
structure WorkVars where
  a : Word
  b : Word
  c : Word
  d : Word
  e : Word
  f : Word
  g : Word
  h : Word
deriving DecidableEq, Repr

/-- Loading the working variables (43_compress.md R142). -/
def loadVars (S : Chain) : WorkVars :=
  ⟨S[0], S[1], S[2], S[3], S[4], S[5], S[6], S[7]⟩

/-- `T1` of a round with constant `k` and schedule word `w` (43_compress.md R143). -/
def roundT1 (v : WorkVars) (k w : Word) : Word :=
  add32 (add32 (add32 (add32 v.h (bigSigma1 v.e)) (ch v.e v.f v.g)) k) w

/-- `T2` of a round (43_compress.md R144). -/
def roundT2 (v : WorkVars) : Word := add32 (bigSigma0 v.a) (maj v.a v.b v.c)

/-- One round: all eight assignments use the values from its start (43_compress.md R145, R146). -/
def roundStep (v : WorkVars) (k w : Word) : WorkVars :=
  ⟨add32 (roundT1 v k w) (roundT2 v), v.a, v.b, v.c, add32 v.d (roundT1 v k w), v.e, v.f, v.g⟩

/-- The working variables after rounds `0 .. n-1`, in ascending order (43_compress.md R147). -/
def afterRounds (w : Vector Word 64) (v : WorkVars) : (n : Nat) → n ≤ 64 → WorkVars
  | 0, _ => v
  | n + 1, h => roundStep (afterRounds w v n (by omega)) Config.K[n] w[n]

/-- The feed-forward (43_compress.md R148). -/
def feedForward (S : Chain) (v : WorkVars) : Chain :=
  #v[add32 S[0] v.a, add32 S[1] v.b, add32 S[2] v.c, add32 S[3] v.d,
     add32 S[4] v.e, add32 S[5] v.f, add32 S[6] v.g, add32 S[7] v.h]

/-- `compress(S, B)` (43_compress.md R140). Irreducible, so that comparing two states never runs 64 rounds. -/
@[irreducible] def compress (S : Chain) (B : Block) : Chain :=
  feedForward S (afterRounds (schedule B) (loadVars S) 64 (Nat.le_refl 64))

/-! ### The iterative form -/

/-- The transient registers of an iterative core: the working variables and a window of sixteen schedule words, of which the
first is the word of the round to come (42_schedule.md R132; `r[i]` for `i < 16` there is the front of this window). -/
structure CoreRegs where
  vars : WorkVars
  window : Vector Word 16
deriving DecidableEq, Repr

/-- One clock of the iterative core: round `n`, then the window moves on (42_schedule.md R132, 43_compress.md R146). -/
def coreStep (r : CoreRegs) (k : Word) : CoreRegs :=
  ⟨roundStep r.vars k r.window[0], slideWindow r.window⟩

/-- The core's registers after `n` clocks. -/
def coreAfter (S : Chain) (B : Block) : (n : Nat) → n ≤ 64 → CoreRegs
  | 0, _ => ⟨loadVars S, parse B⟩
  | n + 1, h => coreStep (coreAfter S B n (by omega)) Config.K[n]

/-- The compression an iterative core performs, holding sixteen schedule words instead of 64 (42_schedule.md R132). -/
def compressIterative (S : Chain) (B : Block) : Chain :=
  feedForward S (coreAfter S B 64 (Nat.le_refl 64)).vars

end Sys2Proof.Machine
end

