-- ==== Sys2Proof/Machine/State.lean ====
section
/-! DEFINITION. The state of the engine (10_state.md R20), its reset value (R38), and the ways a step can stop. -/

namespace Sys2Proof.Machine

/-- The block buffer as memory: (address, byte) pairs, addresses strictly rising and below 64, no byte equal to what an
unlisted address reads as (`Memory.unlisted`, Machine/Ops.lean); `Memory.wf` says so (20_memory.md R50; log entry 5). -/
abbrev Memory := List Host.Cell

/-- The causes of the engine's own faults (60_exceptions.md R181); their codes are `faultCode` (Machine/Flags.lean). -/
inductive FaultCause where
  /-- Raised by `ABSORB` and `FINALIZE` on a spent engine (60_exceptions.md R182). -/
  | useAfterFinalize
  /-- Raised by a reserved command word (60_exceptions.md R183). -/
  | illegalCommand
deriving DecidableEq, Repr

/-- What the host can do to the engine's state (30_encoding.md R79): deliver a command word, or assert `rst`
(93_implementation_defined.md U7: "Reset is an event in the command stream"). -/
inductive HostEvent where
  | command (cmd : CmdWord)
  | reset
deriving DecidableEq, Repr

/-- The seven items of architectural state of 10_state.md R20, and the host's command stream. -/
structure State where
  /-- `state` = `H[0..7]`, the running hash accumulator (10_state.md R21). -/
  h : Chain
  /-- `buffer`, 64 bytes, the current partial block (10_state.md R22). -/
  buffer : Memory
  /-- `buffer_len`, the count of valid bytes in `buffer` (10_state.md R23). -/
  bufferLen : BitVec 6
  /-- `block_count`, blocks compressed so far, modulo 2^64 (10_state.md R24). -/
  blockCount : BitVec 64
  /-- `finalized`, the spent mark (10_state.md R25). -/
  finalized : Bool
  /-- `fault` (10_state.md R26). -/
  fault : Bool
  /-- `fault_cause`, two bits (10_state.md R26; log entry 8). -/
  faultCause : BitVec 2
  /-- The MODEL's own field: the host events delivered and not yet performed, oldest first (30_encoding.md R79 "the list of
  accepted commands in order"; log entry 1). -/
  pending : List HostEvent
deriving DecidableEq, Repr

/-- No step of this engine stops the machine with a fault: the engine's faults are states, phase FAULTED, in which it goes on
accepting and dropping commands (60_exceptions.md R185, R187), so they are NEXT states, and there is no constructor here
(log entry 2; safe). -/
inductive Fault where
deriving DecidableEq, Repr

/-- Why a step has no meaning. -/
inductive Refusal where
  /-- Raised by `exec`'s arm of an instruction that has no meaning yet (safe). No arm answers it. -/
  | notModelled (mnemonic : String)
  /-- Raised by `FINALIZE` when `fault = 0`, `finalized = 0` and `block_count ≥ 2^55`: "unspecified: a model gives it no
  meaning" (44_finalize.md R169, 93_implementation_defined.md U1; log entry 3; safe). -/
  | messageTooLong
deriving DecidableEq, Repr

/-- The engine right after reset (10_state.md R38), with nothing delivered by the host (log entry 1). -/
def State.reset : State where
  h := Config.IV
  buffer := []
  bufferLen := 0
  blockCount := 0
  finalized := false
  fault := false
  faultCause := 0
  pending := []

end Sys2Proof.Machine
end

