-- ==== Sys2Proof/Machine/Flags.lean ====
section
/-! DEFINITION. Flag computations: fault codes (60_exceptions.md R181), the carry out of `buffer_len + 1` (41_word_functions.md
R121), `digest_valid` (10_state.md R33) and the phase (R36). The engine has no other flags (R39). -/

namespace Sys2Proof.Machine

/-- The code of a cause in `fault_cause` (60_exceptions.md R181). -/
def faultCode : FaultCause → BitVec 2
  | .useAfterFinalize => 1
  | .illegalCommand => 2

/-- The carry out of the 6-bit increment of `buffer_len`: the buffer "reaches 64" (41_word_functions.md R121, 10_state.md R23). -/
def lenCarry (n : BitVec 6) : Bool := n.toNat + 1 == 64

/-- `digest_valid = finalized ∧ ¬fault` (10_state.md R33). -/
def digestValid (s : State) : Bool := s.finalized && !s.fault

/-- The phases of the engine (10_state.md R36). -/
inductive Phase where
  | active
  | spent
  | faulted
deriving DecidableEq, Repr

/-- The phase, a function of `fault` and `finalized` (10_state.md R36). -/
def phase (s : State) : Phase :=
  if s.fault then .faulted else if s.finalized then .spent else .active

end Sys2Proof.Machine
end

