-- ==== Sys2Proof/Machine/Ops.lean ====
section
/-! DEFINITION. The shared operations: the block buffer's reads and writes (20_memory.md R59), taking a fault and the checks
in front of it (60_exceptions.md R184, R185), creation and reset (10_state.md R38). -/

namespace Sys2Proof.Machine

/-! ### The block buffer -/

/-- What an unlisted byte of the buffer reads as: its content after reset, `INIT` and a clear (10_state.md R38, log entry 5). -/
abbrev Memory.unlisted : Byte := 0

/-- The canonical form, from address `lo` on: addresses rising and below 64, no listed byte equal to `unlisted`. -/
def Memory.wfFrom : Nat → Memory → Bool
  | _, [] => true
  | lo, (k, b) :: rest => decide (lo ≤ k) && decide (k < 64) && b != Memory.unlisted && Memory.wfFrom (k + 1) rest

/-- The canonical form of the buffer. -/
def Memory.wf (m : Memory) : Bool := Memory.wfFrom 0 m

/-- The byte at an index. -/
def Memory.readAt : Memory → Nat → Byte
  | [], _ => Memory.unlisted
  | (k, b) :: rest, a => if k = a then b else Memory.readAt rest a

/-- A cell in front of a list of later cells, listed only where it differs from what an unlisted address reads as. -/
def Memory.consCell (a : Nat) (v : Byte) (rest : Memory) : Memory :=
  if v = Memory.unlisted then rest else (a, v) :: rest

/-- The buffer with one byte replaced, in canonical form. -/
def Memory.writeAt : Memory → Nat → Byte → Memory
  | [], a, v => Memory.consCell a v []
  | (k, b) :: rest, a, v =>
    if a < k then Memory.consCell a v ((k, b) :: rest)
    else if a = k then Memory.consCell a v rest
    else (k, b) :: Memory.writeAt rest a v

/-- All 64 bytes 0 (10_state.md R22, 40_init_absorb.md R91 "zero the buffer"). -/
def Memory.clear : Memory := []

/-- `MemRead(addr, 1)` (20_memory.md R59): an index of `buffer` is six bits wide, so none is out of range. -/
def memRead1 (m : Memory) (addr : BitVec 6) : Byte := m.readAt addr.toNat

/-- `MemRead(4j, 4)`: the word at byte index `4j`, big-endian (20_memory.md R51, R59). -/
def memRead4 (m : Memory) (j : Fin 16) : Word :=
  wordOfBytes (m.readAt (4 * j.val)) (m.readAt (4 * j.val + 1)) (m.readAt (4 * j.val + 2)) (m.readAt (4 * j.val + 3))

/-- `MemWrite(addr, 1, v)` (20_memory.md R59). -/
def memWrite1 (m : Memory) (addr : BitVec 6) (v : Byte) : Memory := m.writeAt addr.toNat v

/-- All 64 bytes, as the compression reads them (10_state.md R22). -/
def Memory.block (m : Memory) : Block := Vector.ofFn fun i => m.readAt i.val

/-! ### Faults -/

/-- `raise F`: fault entry writes `fault` and `fault_cause` and nothing else (60_exceptions.md R185). -/
def raise (c : FaultCause) (s : State) : State :=
  { s with fault := true, faultCause := faultCode c }

/-- While `fault = 1` every command is dropped: it changes nothing and raises nothing (60_exceptions.md R187, R184 point 1). -/
def unlessFaulted (s : State) (k : State → Host.Outcome State Fault Refusal) : Host.Outcome State Fault Refusal :=
  if s.fault then .next s else k s

/-- The check in front of `ABSORB` and `FINALIZE` (60_exceptions.md R182, R184 point 3). -/
def unlessSpent (s : State) (k : State → Host.Outcome State Fault Refusal) : Host.Outcome State Fault Refusal :=
  if s.finalized then .next (raise .useAfterFinalize s) else k s

/-- A reserved command word: dropped in phase FAULTED, else `IllegalCommand` (30_encoding.md R73, 60_exceptions.md R183). -/
def execReserved (s : State) : Host.Outcome State Fault Refusal :=
  unlessFaulted s fun s => .next (raise .illegalCommand s)

/-! ### Creation and reset -/

/-- A fresh engine, as `INIT` makes it (40_init_absorb.md R90): `fault` and `fault_cause` are not written. -/
def freshEngine (s : State) : State :=
  { s with h := Config.IV, buffer := Memory.clear, bufferLen := 0, blockCount := 0, finalized := false }

/-- Reset: a fresh engine with no fault (70_reset_and_hazards.md R200); the only way out of phase FAULTED
(60_exceptions.md R186). The host events still to come are not engine state and stay (log entry 9). -/
def resetEngine (s : State) : State :=
  { freshEngine s with fault := false, faultCause := 0 }

end Sys2Proof.Machine
end

