-- ==== Sys2Proof/Machine/Absorption.lean ====
section
/-! DEFINITION. Creation and byte absorption: `INIT`, `ABSORB`, and the procedure `absorb_byte` (40_init_absorb.md). -/

namespace Sys2Proof.Machine

/-- `INIT`: dropped in phase FAULTED, else a fresh engine (40_init_absorb.md R90). -/
def execInit (s : State) : Host.Outcome State Fault Refusal :=
  unlessFaulted s fun s => .next (freshEngine s)

/-- `absorb_byte(v)`: store the byte; when the buffer reaches 64 bytes, compress it, clear it, count it and start again at 0
(40_init_absorb.md R91). -/
def absorbByte (v : Byte) (s : State) : State :=
  let stored := memWrite1 s.buffer s.bufferLen v
  if lenCarry s.bufferLen then
    { s with
      h := compress s.h stored.block
      buffer := Memory.clear
      blockCount := s.blockCount + 1
      bufferLen := 0 }
  else
    { s with buffer := stored, bufferLen := s.bufferLen + 1 }

/-- `absorb_byte` for each byte of a sequence, first to last (40_init_absorb.md R94, 44_finalize.md R164). -/
def absorbBytes (vs : List Byte) (s : State) : State := vs.foldl (fun t v => absorbByte v t) s

/-- `ABSORB v` (40_init_absorb.md R92). -/
def execAbsorb (v : Byte) (s : State) : Host.Outcome State Fault Refusal :=
  unlessFaulted s fun s => unlessSpent s fun s => .next (absorbByte v s)

end Sys2Proof.Machine
end

