-- ==== Sys2Proof/Machine/Finalization.lean ====
section
/-! DEFINITION. Padding and digest finalization: `FINALIZE` (44_finalize.md). -/

namespace Sys2Proof.Machine

/-- `total_bits`, read before any padding byte is absorbed; exact (44_finalize.md R161). -/
def totalBits (s : State) : Nat := s.blockCount.toNat * 512 + s.bufferLen.toNat * 8

/-- `padding_len = (448 − (total_bits + 8) mod 512) mod 512`, where `mod` never answers a negative number (44_finalize.md R162,
00_scope.md R6; log entry 11). -/
def paddingLen (bits : Nat) : Nat := ((448 - ((bits : Int) + 8) % 512) % 512).toNat

/-- The padding bytes: `0x80`, zeros, the length big-endian (44_finalize.md R163). -/
def padding (bits : Nat) : List Byte :=
  [Config.padMarker] ++ List.replicate (paddingLen bits / 8) 0 ++ (be64 (BitVec.ofNat 64 bits)).toList

/-- Steps 3 to 5 of `FINALIZE`: absorb the padding, then set the spent mark (44_finalize.md R164, R167). -/
def finalizeMessage (s : State) : State :=
  { absorbBytes (padding (totalBits s)) s with finalized := true }

/-- `FINALIZE` (44_finalize.md R171); unspecified, so refused, from `block_count = 2^55` on (R169; log entry 3). -/
def execFinalize (s : State) : Host.Outcome State Fault Refusal :=
  unlessFaulted s fun s => unlessSpent s fun s =>
    if s.blockCount.toNat < Config.maxBlocks then .next (finalizeMessage s) else .refused .messageTooLong

end Sys2Proof.Machine
end

