-- ==== Sys2Proof/Machine/Dispatch.lean ====
section
/-! DEFINITION. One arm per command (30_encoding.md R74). -/

namespace Sys2Proof.Machine

def exec (i : Instr) (s : State) : Host.Outcome State Fault Refusal :=
  match i with
  | .init => Sys2Proof.Machine.execInit s
  | .absorb v => Sys2Proof.Machine.execAbsorb v s
  | .finalize => Sys2Proof.Machine.execFinalize s

end Sys2Proof.Machine
end

