-- ==== Sys2Proof/Machine/Perform.lean ====
section
/-! DEFINITION. Taking the next host event and performing a command word (30_encoding.md R74, R79). -/

namespace Sys2Proof.Machine

/-- The oldest event not yet performed, and the state with it taken off the stream; `none` when the host has delivered
nothing (30_encoding.md R79, 20_memory.md R61). -/
def takeEvent (s : State) : Option (HostEvent × State) :=
  match s.pending with
  | [] => none
  | e :: rest => some (e, { s with pending := rest })

/-- `perform(cmd)` (30_encoding.md R74): the drop in phase FAULTED stands in every meaning and in `execReserved`. -/
def perform (cmd : CmdWord) (s : State) : Host.Outcome State Fault Refusal :=
  match decode cmd with
  | .ok i => exec i s
  | .error _ => execReserved s

/-- Performing one host event (30_encoding.md R74, 70_reset_and_hazards.md R200). -/
def performEvent (e : HostEvent) (s : State) : Host.Outcome State Fault Refusal :=
  match e with
  | .command cmd => perform cmd s
  | .reset => .next (resetEngine s)

/-- The host offering a command word as the next one: it goes in front of what is still to be performed (log entry 1). -/
def offerNext (cmd : CmdWord) (s : State) : State := { s with pending := .command cmd :: s.pending }

end Sys2Proof.Machine
end

