-- ==== Sys2Proof/Machine/Step.lean ====
section
/-! DEFINITION. One step of the machine: the oldest host event is performed, completely (00_scope.md R9, 20_memory.md R61).
With no event the engine does nothing: it "never acts on its own" (00_scope.md R8; log entry 1). -/

namespace Sys2Proof.Machine

/-- One step. -/
def step (s : State) : Host.Outcome State Fault Refusal :=
  match takeEvent s with
  | none => .next s
  | some (e, t) => performEvent e t

/-- The state in which the next step performs the table word `w`: there is no instruction memory, so the host offers the word
(10_state.md R29, 30_encoding.md R79; log entries 1, 10). A word that does not fit the port cannot be offered. -/
def State.withFetchWord (s : State) (nbits w : Nat) : State :=
  match tableCommand nbits w with
  | none => s
  | some cmd => offerNext cmd s

end Sys2Proof.Machine
end

