-- ==== Sys2Proof/Assembly.lean ====
section
/-! DEFINITION. The spec's notation for command sequences (30_encoding.md R76, R77) as abstract syntax. Its expansion into
command words is Machine/Assembler.lean; which lines are well formed is WellFormed.lean. How a line is spelled (white space,
comments) is notation and not modelled (log entry 13). -/

namespace Sys2Proof

/-- A byte operand as written: a number (hexadecimal or decimal) or an ASCII character in quotes (30_encoding.md R76). -/
inductive ByteLit where
  | num (n : Nat)
  | char (c : Char)
deriving DecidableEq, Repr

/-- One line of a command sequence (30_encoding.md R76) or a pseudo-instruction (R77). -/
inductive AsmLine where
  /-- `INIT` -/
  | init
  /-- `ABSORB <byte>` -/
  | absorb (b : ByteLit)
  /-- `FINALIZE` -/
  | finalize
  /-- `.word <value>`: a raw command word 0x000..0x3FF. -/
  | word (value : Nat)
  /-- `ABSORBS b0 b1 ...`; `ABSORBS "text"` is the list of the text's characters. -/
  | absorbs (bs : List ByteLit)
  /-- `HASH b0 b1 ...` -/
  | hash (bs : List ByteLit)
deriving DecidableEq, Repr

end Sys2Proof
end

