-- ==== Sys2Proof/Machine/Assembler.lean ====
section
/-! DEFINITION. The assembler: lines and pseudo-instructions to command words (30_encoding.md R76, R77). -/

namespace Sys2Proof.Machine

/-- The byte a literal denotes (30_encoding.md R76); for a well-formed literal nothing is cut off. -/
def byteOfLit : ByteLit → Byte
  | .num n => BitVec.ofNat 8 n
  | .char c => BitVec.ofNat 8 c.toNat

/-- `ABSORBS b0 b1 ...`: one `ABSORB` for each byte, in order; for no byte, no command (30_encoding.md R77). -/
def absorbsWords (bs : List Byte) : List CmdWord := bs.map fun b => encode (.absorb b)

/-- `HASH b0 b1 ...`: `INIT`, `ABSORBS b0 b1 ...`, `FINALIZE` (30_encoding.md R77). -/
def hashWords (bs : List Byte) : List CmdWord := [encode .init] ++ absorbsWords bs ++ [encode .finalize]

/-- The command words of one line (30_encoding.md R76, R77). -/
def assembleLine : AsmLine → List CmdWord
  | .init => [encode .init]
  | .absorb b => [encode (.absorb (byteOfLit b))]
  | .finalize => [encode .finalize]
  | .word value => [BitVec.ofNat 10 value]
  | .absorbs bs => absorbsWords (bs.map byteOfLit)
  | .hash bs => hashWords (bs.map byteOfLit)

/-- A program is a finite list of lines, issued first to last (30_encoding.md R76). -/
def assemble (lines : List AsmLine) : List CmdWord := lines.flatMap assembleLine

/-- The state in which the host has delivered a list of command words and nothing else is outstanding. -/
def deliver (cmds : List CmdWord) (s : State) : State := { s with pending := cmds.map .command }

end Sys2Proof.Machine
end

