-- ==== Sys2Proof/Machine/Run.lean ====
section
/-! DEFINITION. Several steps in a row: the performance of a command sequence, first to last (30_encoding.md R76). -/

namespace Sys2Proof.Machine

/-- `n` steps, ending early where a step gives no next state. -/
def run (n : Nat) (s : State) : Host.Outcome State Fault Refusal :=
  match n with
  | 0 => .next s
  | k + 1 =>
    match step s with
    | .next t => run k t
    | stopped => stopped

end Sys2Proof.Machine
end

