-- ==== Sys2Proof/Machine/MessageDigest.lean ====
section
/-! DEFINITION. What the engine computes, in one formula: the digest of a message of whole bytes (44_finalize.md R168). It names
no state of the engine; claims compare the engine with it. -/

namespace Sys2Proof.Machine

/-- The padded message: `m ++ 80 ++ (00 × ((55 − L) mod 64)) ++ be64(8·L)` (44_finalize.md R168). -/
def paddedMessage (m : List Byte) : List Byte :=
  m ++ [0x80] ++ List.replicate ((55 - (m.length : Int)) % 64).toNat 0 ++ (be64 (BitVec.ofNat 64 (8 * m.length))).toList

/-- Block `k` of a byte sequence: bytes `64k .. 64k+63` (20_memory.md R56). -/
def blockOf (p : List Byte) (k : Nat) : Block := Vector.ofFn fun i => p.getD (64 * k + i.val) 0

/-- `S_k`: `IV` and then one compression for each block (44_finalize.md R168). -/
def chainAfter (p : List Byte) : Nat → Chain
  | 0 => Config.IV
  | k + 1 => compress (chainAfter p k) (blockOf p k)

/-- The digest of a message (44_finalize.md R168). -/
def messageDigest (m : List Byte) : Digest :=
  digestBytes (chainAfter (paddedMessage m) ((paddedMessage m).length / 64))

end Sys2Proof.Machine
end

