-- ==== Sys2Proof/Machine/Ports.lean ====
section
/-! DEFINITION. The ports (30_encoding.md R79): what the host drives, how a command is accepted, and what the host sees
(10_state.md R33, R34). -/

namespace Sys2Proof.Machine

/-- The input ports at one instant (30_encoding.md R79). -/
structure InPorts where
  rst : Bool
  cmdValid : Bool
  cmd : CmdWord
deriving DecidableEq, Repr

/-- `cmd_ready`: 1 when no accepted event is still to be performed: "each completely before the next is accepted"
(30_encoding.md R79; log entry 9). -/
def cmdReady (s : State) : Bool := s.pending.isEmpty

/-- One instant at the ports. `rst` abandons what is still to be performed (70_reset_and_hazards.md R200); otherwise a command
is accepted when `cmd_valid` and `cmd_ready` are both 1 (30_encoding.md R79; log entry 9). -/
def acceptPorts (p : InPorts) (s : State) : State :=
  if p.rst then { s with pending := [.reset] }
  else if p.cmdValid && cmdReady s then { s with pending := [.command p.cmd] }
  else s

/-- `digest`: a view of `H` while `digest_valid = 1`; without a value otherwise (10_state.md R34,
93_implementation_defined.md U3; log entry 7). -/
def digestOut (s : State) : Option Digest :=
  if digestValid s then some (digestBytes s.h) else none

/-- `digest_bits`, the digest on a 256-bit bus (20_memory.md R53); without a value while `digest_valid = 0`. -/
def digestBitsOut (s : State) : Option (BitVec 256) :=
  if digestValid s then some (digestWide s.h) else none

/-- The output ports (30_encoding.md R79, 10_state.md R33). -/
structure OutPorts where
  cmdReady : Bool
  digestValid : Bool
  digestBits : Option (BitVec 256)
  fault : Bool
  faultCause : BitVec 2
deriving DecidableEq, Repr

/-- What the host sees of a state (10_state.md R33); reading it changes nothing (20_memory.md R57). With `cmd_ready = 1` these are
the values after the last accepted command (30_encoding.md R79). DESIGN CHOICE, unsafe: with `cmd_ready = 0`, an event outstanding,
the spec allows any value (93_implementation_defined.md U8); the model shows the values from before that event (log entry 14). -/
def outPorts (s : State) : OutPorts where
  cmdReady := cmdReady s
  digestValid := digestValid s
  digestBits := digestBitsOut s
  fault := s.fault
  faultCause := s.faultCause

end Sys2Proof.Machine
end

