-- ==== Sys2Proof/Safety.lean ====
section
/-! DEFINITION. What counts as a safe run (60_exceptions.md R193) and the invariants claims are stated with (10_state.md R32). -/

namespace Sys2Proof.Machine

/-- A state is safe when no contract violation has been detected: "treat FAULTED as a bad state" (60_exceptions.md R193). -/
def Safe (s : State) : Prop := s.fault = false

/-- Items 1 to 4 of 10_state.md R32, with the canonical form of the buffer and the code that is never written (R26).
Item 1, `buffer_len ≤ 63`, is the register's width. -/
structure Inv (s : State) : Prop where
  /-- The buffer's cell list is canonical. -/
  bufferWf : s.buffer.wf = true
  /-- Item 2: every byte at or above `buffer_len` is 0. -/
  tailZero : ∀ a : BitVec 6, s.bufferLen.toNat ≤ a.toNat → memRead1 s.buffer a = 0
  /-- Item 3: a spent engine holds no bytes. -/
  spentEmpty : s.finalized = true → s.bufferLen = 0 ∧ ∀ a : BitVec 6, memRead1 s.buffer a = 0
  /-- Item 4. -/
  causeIffFault : s.fault = false ↔ s.faultCause = 0
  /-- Code 3 is never written (10_state.md R26). -/
  causeLegal : s.faultCause ≠ 3

/-- Item 5 of 10_state.md R32: the engine is absorbing, and `m` is the message stream since the last `INIT` or reset. -/
structure Absorbed (m : List Byte) (s : State) : Prop where
  notFaulted : s.fault = false
  notSpent : s.finalized = false
  /-- Fewer than 2^64 blocks have been compressed, so the count has not wrapped. -/
  length : m.length = s.blockCount.toNat * 64 + s.bufferLen.toNat
  /-- `H` is the result of compressing the first `block_count` blocks in order, starting from `IV`. -/
  chain : s.h = chainAfter m s.blockCount.toNat
  /-- The buffer's valid bytes are the rest. -/
  rest : ∀ a : BitVec 6, a.toNat < s.bufferLen.toNat →
    memRead1 s.buffer a = m.getD (64 * s.blockCount.toNat + a.toNat) 0

/-- The state without the bytes of `buffer` at or above `buffer_len`: equal for two states that differ in hidden bytes only
(10_state.md R35 point 2). -/
structure SameButHidden (s t : State) : Prop where
  h : s.h = t.h
  bufferLen : s.bufferLen = t.bufferLen
  blockCount : s.blockCount = t.blockCount
  finalized : s.finalized = t.finalized
  fault : s.fault = t.fault
  faultCause : s.faultCause = t.faultCause
  pending : s.pending = t.pending
  validBytes : ∀ a : BitVec 6, a.toNat < s.bufferLen.toNat → memRead1 s.buffer a = memRead1 t.buffer a

/-- Two states alike in everything but data: the registers that steer the sequence of operations are equal
(70_reset_and_hazards.md R208). -/
structure SameControl (s t : State) : Prop where
  bufferLen : s.bufferLen = t.bufferLen
  blockCount : s.blockCount = t.blockCount
  finalized : s.finalized = t.finalized
  fault : s.fault = t.fault
  faultCause : s.faultCause = t.faultCause

end Sys2Proof.Machine
end

