-- ==== Sys2Proof/WellFormed.lean ====
section
/-! DEFINITION. Which commands and which lines of a command sequence are well formed.

A command has one operand, the byte of `ABSORB`, and "all 256 values" are legal (30_encoding.md R72): the type `Byte` is the
whole check, so every `Instr` is well formed. The checks that can fail are those of the written notation, where operands are
numbers and characters (30_encoding.md R76). -/

namespace Sys2Proof

/-- Every command is well formed: `INIT` and `FINALIZE` have no operand, and `ABSORB`'s may be any byte (30_encoding.md R72). -/
def Instr.wellFormed : Instr → Bool
  | .init => true
  | .absorb _ => true
  | .finalize => true

/-- A byte operand is 0..255, or an ASCII character (30_encoding.md R76). -/
def ByteLit.wellFormed : ByteLit → Bool
  | .num n => n < 256
  | .char c => c.toNat < 128

/-- A line is well formed when its byte operands are, and a raw word is 0x000..0x3FF (30_encoding.md R76, R77). -/
def AsmLine.wellFormed : AsmLine → Bool
  | .init => true
  | .absorb b => b.wellFormed
  | .finalize => true
  | .word value => value < 1024
  | .absorbs bs => bs.all ByteLit.wellFormed
  | .hash bs => bs.all ByteLit.wellFormed

end Sys2Proof
end

