-- ==== Sys2Proof/Certificates/Slice0/Obligations.lean ====
section
/-! DEFINITION. The statements for the provers. Each docstring names the rule of spec/ the statement formalises; where a clause
rests on a choice of the model, it names the log entry (notes/assumptions/<n>.md). -/

open Sys2Proof Sys2Proof.Machine

/-! ### Encoding -/

/-- Decoding and encoding agree, both ways, for every command and every one of the 1024 words (30_encoding.md R71, R74). Every
`Instr` is well formed. -/
def Obligations.DecodeEncodeAgree : Prop :=
  ∀ (cmd : CmdWord) (i : Instr), decode cmd = .ok i ↔ cmd = encode i

/-- 30_encoding.md R73: which words are reserved and how many words are legal; a reserved word raises `IllegalCommand` in phases
ACTIVE and SPENT and is dropped in phase FAULTED. -/
def Obligations.ReservedWordsAreTheThreeRanges : Prop :=
  (∀ cmd : CmdWord, (∃ e, decode cmd = .error e) ↔
    cmd.toNat ≤ 0x0FF ∨ (0x101 ≤ cmd.toNat ∧ cmd.toNat ≤ 0x1FF) ∨ (0x301 ≤ cmd.toNat ∧ cmd.toNat ≤ 0x3FF)) ∧
  ((List.range 1024).filter fun n => (decode (BitVec.ofNat 10 n)).toOption.isSome).length = 258 ∧
  ((List.range 1024).filter fun n => (decode (BitVec.ofNat 10 n)).toOption.isNone).length = 766 ∧
  ∀ (s : State) (cmd : CmdWord) (e : DecodeError) (rest : List HostEvent),
    s.pending = .command cmd :: rest → decode cmd = .error e →
    (phase s ≠ .faulted → step s = .next { s with pending := rest, fault := true, faultCause := 2 }) ∧
    (phase s = .faulted → step s = .next { s with pending := rest })

/-- 30_encoding.md R71: a decoded command's word selects its own row of the opcode table and no other; a reserved word selects
none. -/
def Obligations.EachLegalWordSelectsOneRow : Prop :=
  (∀ (cmd : CmdWord) (i : Instr), decode cmd = .ok i →
    (opcodeRows.filter fun r => r.selects cmd).map OpcodeRow.mnemonic = [mnemonic i]) ∧
  (∀ (cmd : CmdWord) (e : DecodeError), decode cmd = .error e → (opcodeRows.filter fun r => r.selects cmd) = [])

/-- A few words, written out bit by bit from 30_encoding.md R70, R71, decode to what they stand for (sanity). -/
def Obligations.WrittenOutWordsDecode : Prop :=
  decode 0b0100000000 = .ok .init ∧
  decode 0b1001100001 = .ok (.absorb 0x61) ∧ decode 0b1000000000 = .ok (.absorb 0x00) ∧
  decode 0b1011111111 = .ok (.absorb 0xFF) ∧
  decode 0b1100000000 = .ok .finalize ∧
  decode 0b0000000000 = .error .reservedOp ∧ decode 0b0100000001 = .error .initDataNonzero ∧
  decode 0b1110000000 = .error .finalizeDataNonzero

/-- 30_encoding.md R76: the encodings of the assembler's lines, for every well-formed operand. -/
def Obligations.AssemblerEncodings : Prop :=
  assembleLine .init = [0x100] ∧ assembleLine .finalize = [0x300] ∧
  (∀ n, (AsmLine.absorb (.num n)).wellFormed = true → (assembleLine (.absorb (.num n))).map BitVec.toNat = [0x200 + n]) ∧
  (∀ c, (AsmLine.absorb (.char c)).wellFormed = true →
    (assembleLine (.absorb (.char c))).map BitVec.toNat = [0x200 + c.toNat]) ∧
  (∀ n, (AsmLine.word n).wellFormed = true → (assembleLine (.word n)).map BitVec.toNat = [n])

/-- 30_encoding.md R77: `ABSORBS` is its `ABSORB`s in order, and nothing for no byte; `HASH` is `INIT`, `ABSORBS`, `FINALIZE`. -/
def Obligations.PseudoInstructionsExpand : Prop :=
  ∀ bs : List ByteLit,
    assemble [.absorbs bs] = assemble (bs.map .absorb) ∧
    assemble [.hash bs] = assemble [.init, .absorbs bs, .finalize]

/-! ### The step -/

/-- A step performs the oldest delivered word's command, on the state with that word taken off the stream (30_encoding.md R74,
20_memory.md R61; the stream is log entry 1). -/
def Obligations.StepPerformsTheDecodedCommand : Prop :=
  ∀ (s : State) (cmd : CmdWord) (i : Instr) (rest : List HostEvent),
    s.pending = .command cmd :: rest → decode cmd = .ok i → step s = exec i { s with pending := rest }

/-- 20_memory.md R61: events take effect one at a time, in the order delivered: a step takes exactly the oldest off the stream.
With nothing delivered the engine does nothing (00_scope.md R8; log entry 1). -/
def Obligations.StepTakesExactlyOneEvent : Prop :=
  ∀ s t : State, step s = .next t → t.pending = s.pending.tail ∧ (s.pending = [] → t = s)

/-- The word the host's interface offers is the next one performed (log entries 1 and 10, the model's choice). -/
def Obligations.OfferedWordIsPerformedNext : Prop :=
  ∀ (s : State) (nbits w : Nat) (i : Instr), decodeTableWord nbits w = some i → step (s.withFetchWord nbits w) = exec i s

/-- 70_reset_and_hazards.md R206 "every accepted command completes", but for the one case the spec gives no meaning
(44_finalize.md R169; log entry 3). -/
def Obligations.EveryStepCompletesButOne : Prop :=
  ∀ s : State,
    (((∃ rest, s.pending = .command 0x300 :: rest) ∧ s.fault = false ∧ s.finalized = false ∧ 2 ^ 55 ≤ s.blockCount.toNat) →
      step s = .refused .messageTooLong) ∧
    (¬((∃ rest, s.pending = .command 0x300 :: rest) ∧ s.fault = false ∧ s.finalized = false ∧ 2 ^ 55 ≤ s.blockCount.toNat) →
      ∃ t, step s = .next t)

/-- The handshake of 30_encoding.md R79: a command is accepted when `cmd_valid` and `cmd_ready` are both 1, is performed next,
and leaves `cmd_ready` at 1 (log entry 9 for when `cmd_ready` is 1 in the model). -/
def Obligations.HandshakeAcceptsAndPerforms : Prop :=
  ∀ (p : InPorts) (s : State), p.rst = false →
    (p.cmdValid = true → cmdReady s = true → step (acceptPorts p s) = perform p.cmd s) ∧
    (p.cmdValid = false ∨ cmdReady s = false → acceptPorts p s = s) ∧
    (∀ t, cmdReady s = true → p.cmdValid = true → step (acceptPorts p s) = .next t → cmdReady t = true)

/-! ### Reset -/

/-- 70_reset_and_hazards.md R200: reset, whatever the engine was doing, gives a fresh engine with no fault. Asserting `rst` at
the ports abandons what was still to be performed (log entry 9). -/
def Obligations.ResetGivesAFreshEngine : Prop :=
  (∀ (s : State) (rest : List HostEvent), s.pending = .reset :: rest → ∃ t, step s = .next t ∧
    (∀ j (_ : j < 8), t.h[j] = Config.IV[j]) ∧ (∀ a, memRead1 t.buffer a = 0) ∧ t.bufferLen = 0 ∧ t.blockCount = 0 ∧
    t.finalized = false ∧ t.fault = false ∧ t.faultCause = 0 ∧ digestValid t = false ∧ digestOut t = none ∧
    t = { State.reset with pending := rest }) ∧
  (∀ (p : InPorts) (s : State), p.rst = true → step (acceptPorts p s) = .next State.reset)

/-- 70_reset_and_hazards.md R202: "`INIT` after reset changes nothing". -/
def Obligations.InitAfterResetChangesNothing : Prop :=
  ∀ pending : List HostEvent,
    exec .init { State.reset with pending := pending } = .next { State.reset with pending := pending }

/-! ### Faults -/

/-- 60_exceptions.md R183. -/
def Obligations.ReservedWordRaisesIllegalCommand : Prop :=
  ∀ (s : State) (cmd : CmdWord) (e : DecodeError) (rest : List HostEvent),
    s.pending = .command cmd :: rest → decode cmd = .error e → s.fault = false →
    step s = .next { s with pending := rest, fault := true, faultCause := 2 }

/-- 60_exceptions.md R182: `ABSORB v` (any `v`) and `FINALIZE` with `fault = 0` and `finalized = 1` raise `UseAfterFinalize`,
storing no byte and running no compression; `INIT` does not fault. -/
def Obligations.SpentEngineFaultsOnUse : Prop :=
  ∀ s : State, s.fault = false → s.finalized = true →
    (∀ v, exec (.absorb v) s = .next { s with fault := true, faultCause := 1 }) ∧
    exec .finalize s = .next { s with fault := true, faultCause := 1 } ∧
    (∃ t, exec .init s = .next t ∧ t.fault = false)

/-- 60_exceptions.md R184: at most one fault a command, decided in this order. -/
def Obligations.FaultPriority : Prop :=
  ∀ (s t : State) (cmd : CmdWord) (rest : List HostEvent), s.pending = .command cmd :: rest → step s = .next t →
    (s.fault = true → t = { s with pending := rest }) ∧
    (s.fault = false → (∃ e, decode cmd = .error e) → t.fault = true ∧ t.faultCause = 2) ∧
    (s.fault = false → ((∃ v, decode cmd = .ok (.absorb v)) ∨ decode cmd = .ok .finalize) → s.finalized = true →
      t.fault = true ∧ t.faultCause = 1) ∧
    (s.fault = false → decode cmd = .ok .init → t.fault = false) ∧
    (s.fault = false → (∃ i, decode cmd = .ok i) → s.finalized = false → t.fault = false)

/-- 60_exceptions.md R185: fault entry writes `fault` and `fault_cause` and nothing else; `digest_valid` falls to 0. -/
def Obligations.FaultEntryIsPrecise : Prop :=
  ∀ s t : State, step s = .next t → s.fault = false → t.fault = true →
    (t.faultCause = 1 ∨ t.faultCause = 2) ∧
    t = { s with pending := s.pending.tail, fault := true, faultCause := t.faultCause } ∧
    phase t = .faulted ∧ digestValid t = false ∧ digestOut t = none

/-- 60_exceptions.md R187: while `fault = 1` every accepted command, legal or reserved, is dropped, and the engine is ready
for the next one. That `cmd_ready` is 1 when nothing is outstanding is the model's choice (log entry 9, DESIGN CHOICE). -/
def Obligations.FaultedEngineDropsEveryCommand : Prop :=
  ∀ (s : State) (cmd : CmdWord) (rest : List HostEvent), s.pending = .command cmd :: rest → s.fault = true →
    step s = .next { s with pending := rest } ∧ (rest = [] → cmdReady { s with pending := rest } = true)

/-- 60_exceptions.md R186: only reset leaves phase FAULTED, and no command clears a fault or changes its cause. -/
def Obligations.OnlyResetClearsAFault : Prop :=
  ∀ s t : State, step s = .next t → s.fault = true →
    (t.fault = false ↔ ∃ rest, s.pending = .reset :: rest) ∧ (t.fault = true → t.faultCause = s.faultCause)

/-- 10_state.md R36: the phases, and the complete table of transitions with the causes it names; `INIT` and reset lead to a
fresh engine. -/
def Obligations.PhaseTransitions : Prop :=
  (∀ s : State, (phase s = .active ↔ s.fault = false ∧ s.finalized = false) ∧
    (phase s = .spent ↔ s.fault = false ∧ s.finalized = true) ∧ (phase s = .faulted ↔ s.fault = true) ∧
    (phase s = .spent → digestValid s = true)) ∧
  (∀ (s t : State) (cmd : CmdWord) (rest : List HostEvent), s.pending = .command cmd :: rest → step s = .next t →
    (phase s = .faulted → phase t = .faulted) ∧
    (phase s = .active → decode cmd = .ok .init →
      phase t = .active ∧ t = { State.reset with faultCause := s.faultCause, pending := rest }) ∧
    (phase s = .active → (∃ v, decode cmd = .ok (.absorb v)) → phase t = .active) ∧
    (phase s = .active → decode cmd = .ok .finalize → phase t = .spent) ∧
    (phase s = .active → (∃ e, decode cmd = .error e) → phase t = .faulted ∧ t.faultCause = 2) ∧
    (phase s = .spent → decode cmd = .ok .init →
      phase t = .active ∧ t = { State.reset with faultCause := s.faultCause, pending := rest }) ∧
    (phase s = .spent → (∃ v, decode cmd = .ok (.absorb v)) → phase t = .faulted ∧ t.faultCause = 1) ∧
    (phase s = .spent → decode cmd = .ok .finalize → phase t = .faulted ∧ t.faultCause = 1) ∧
    (phase s = .spent → (∃ e, decode cmd = .error e) → phase t = .faulted ∧ t.faultCause = 2)) ∧
  (∀ (s t : State) (rest : List HostEvent), s.pending = .reset :: rest → step s = .next t →
    phase t = .active ∧ t = { State.reset with pending := rest })

/-- 10_state.md R25: `finalized` is 0 in a fresh engine, set by `FINALIZE` when it completes, cleared by `INIT` and by reset,
and changed by nothing else. -/
def Obligations.FinalizedIsSetAndClearedOnlyAsStated : Prop :=
  State.reset.finalized = false ∧
  ∀ s t : State, step s = .next t →
    (s.finalized = false → (t.finalized = true ↔ s.fault = false ∧ ∃ rest, s.pending = .command 0x300 :: rest)) ∧
    (s.finalized = true → (t.finalized = false ↔
      (s.fault = false ∧ ∃ rest, s.pending = .command 0x100 :: rest) ∨ ∃ rest, s.pending = .reset :: rest))

/-- 10_state.md R21: only `INIT`, reset and a compression (of an `ABSORB` that fills the buffer, or of `FINALIZE`) write
`H[0..7]`. -/
def Obligations.OnlyCompressionInitAndResetWriteTheChain : Prop :=
  ∀ s t : State, step s = .next t → t.h ≠ s.h →
    (∃ rest, s.pending = .reset :: rest) ∨
    (s.fault = false ∧ ∃ rest, s.pending = .command 0x100 :: rest) ∨
    (s.fault = false ∧ s.finalized = false ∧ s.bufferLen = 63 ∧ ∃ v rest, s.pending = .command (encode (.absorb v)) :: rest) ∨
    (s.fault = false ∧ s.finalized = false ∧ ∃ rest, s.pending = .command 0x300 :: rest)

/-! ### INIT and ABSORB -/

/-- 40_init_absorb.md R90: `INIT` creates a fresh engine; in phase FAULTED it is dropped; two in a row equal one. -/
def Obligations.InitMakesAFreshEngine : Prop :=
  decode 0x100 = .ok .init ∧
  ∀ s : State,
    (s.fault = false → ∃ t, exec .init s = .next t ∧
      (∀ j (_ : j < 8), t.h[j] = Config.IV[j]) ∧ (∀ a, memRead1 t.buffer a = 0) ∧ t.bufferLen = 0 ∧ t.blockCount = 0 ∧
      t.finalized = false ∧ t.fault = s.fault ∧ t.faultCause = s.faultCause ∧ t.pending = s.pending ∧
      digestValid t = false ∧ digestOut t = none ∧ exec .init t = .next t) ∧
    (s.fault = true → exec .init s = .next s)

/-- 40_init_absorb.md R92, R93, 0 ≤ n ≤ 62: `ABSORB v` stores `v` at `buffer_len` and counts it, and writes nothing else. -/
def Obligations.AbsorbWithRoomStoresTheByte : Prop :=
  ∀ (s : State) (v : Byte), s.buffer.wf = true → s.fault = false → s.finalized = false → s.bufferLen.toNat ≤ 62 →
    ∃ t, exec (.absorb v) s = .next t ∧
      memRead1 t.buffer s.bufferLen = v ∧ (∀ a, a ≠ s.bufferLen → memRead1 t.buffer a = memRead1 s.buffer a) ∧
      t.bufferLen.toNat = s.bufferLen.toNat + 1 ∧
      t.h = s.h ∧ t.blockCount = s.blockCount ∧ t.finalized = s.finalized ∧ t.fault = s.fault ∧
      t.faultCause = s.faultCause ∧ t.pending = s.pending

/-- 40_init_absorb.md R92, R93, n = 63: `ABSORB v` completes the block: the 64 bytes with `v` last are compressed, the buffer
is cleared, the block counted modulo 2^64, and nothing else written. -/
def Obligations.AbsorbOfTheLastByteCompresses : Prop :=
  ∀ (s : State) (v : Byte), s.buffer.wf = true → s.fault = false → s.finalized = false → s.bufferLen = 63 →
    ∃ t, exec (.absorb v) s = .next t ∧
      t.h = compress s.h (Vector.ofFn fun i => if i.val = 63 then v else memRead1 s.buffer (BitVec.ofNat 6 i.val)) ∧
      (∀ a, memRead1 t.buffer a = 0) ∧ t.bufferLen = 0 ∧
      t.blockCount.toNat = (s.blockCount.toNat + 1) % 2 ^ 64 ∧
      t.finalized = s.finalized ∧ t.fault = s.fault ∧ t.faultCause = s.faultCause ∧ t.pending = s.pending

/-- 40_init_absorb.md R94, R95: absorbing `x` and then `y` from any ACTIVE state completes, stays ACTIVE, and gives the same
state as absorbing `x ++ y`. -/
def Obligations.ChunkingInvariance : Prop :=
  ∀ (x y : List Byte) (s : State), phase s = .active →
    ∃ t u, run x.length (deliver (absorbsWords x) s) = .next t ∧ phase t = .active ∧
      run y.length (deliver (absorbsWords y) t) = .next u ∧ phase u = .active ∧
      run (x.length + y.length) (deliver (absorbsWords (x ++ y)) s) = .next u

/-! ### Word functions, schedule, compression -/

/-- 41_word_functions.md R111, R112: the bits of a rotation and of a shift. -/
def Obligations.RotateAndShiftBits : Prop :=
  (∀ (x : Word) (n i : Nat), 1 ≤ n → n ≤ 32 → i < 32 → (rotr x n).getLsbD i = x.getLsbD ((i + n) % 32)) ∧
  (∀ (x : Word) (n i : Nat), (shr x n).getLsbD i = (decide (i + n ≤ 31) && x.getLsbD (i + n))) ∧
  (∀ (x : Word) (n : Nat), (shr x n).toNat = x.toNat / 2 ^ n)

/-- 41_word_functions.md R118, R119: where `e` has a 1, `Ch` takes the bit of `f`, else of `g`; `Maj` takes the value held by at
least two. -/
def Obligations.ChooseAndMajorityBits : Prop :=
  ∀ (x y z : Word) (i : Nat), i < 32 →
    (ch x y z).getLsbD i = (if x.getLsbD i then y.getLsbD i else z.getLsbD i) ∧
    (maj x y z).getLsbD i = decide (2 ≤ (x.getLsbD i).toNat + (y.getLsbD i).toNat + (z.getLsbD i).toNat)

/-- 41_word_functions.md R114 to R117, bit by bit. -/
def Obligations.SigmaBits : Prop :=
  ∀ (x : Word) (i : Nat), i < 32 →
    (smallSigma0 x).getLsbD i =
      ((x.getLsbD ((i + 7) % 32) ^^ x.getLsbD ((i + 18) % 32)) ^^ (decide (i + 3 < 32) && x.getLsbD (i + 3))) ∧
    (smallSigma1 x).getLsbD i =
      ((x.getLsbD ((i + 17) % 32) ^^ x.getLsbD ((i + 19) % 32)) ^^ (decide (i + 10 < 32) && x.getLsbD (i + 10))) ∧
    (bigSigma0 x).getLsbD i =
      ((x.getLsbD ((i + 2) % 32) ^^ x.getLsbD ((i + 13) % 32)) ^^ x.getLsbD ((i + 22) % 32)) ∧
    (bigSigma1 x).getLsbD i =
      ((x.getLsbD ((i + 6) % 32) ^^ x.getLsbD ((i + 11) % 32)) ^^ x.getLsbD ((i + 25) % 32))

/-- 41_word_functions.md R120: reducing modulo 2^32 once, at the end of each sum of several words, gives the same word. -/
def Obligations.SumsReduceOnceAtTheEnd : Prop :=
  (∀ (v : WorkVars) (k w : Word), (roundT1 v k w).toNat =
    (v.h.toNat + (bigSigma1 v.e).toNat + (ch v.e v.f v.g).toNat + k.toNat + w.toNat) % 2 ^ 32) ∧
  (∀ v : WorkVars, (roundT2 v).toNat = ((bigSigma0 v.a).toNat + (maj v.a v.b v.c).toNat) % 2 ^ 32) ∧
  (∀ w16 w15 w7 w2 : Word, (nextWord w16 w15 w7 w2).toNat =
    (w16.toNat + (smallSigma0 w15).toNat + w7.toNat + (smallSigma1 w2).toNat) % 2 ^ 32)

/-- 20_memory.md R51: the sixteen words of a block, big-endian; they are what reading the buffer at `4j` gives. -/
def Obligations.BlockParsesBigEndian : Prop :=
  (∀ (B : Block) (j : Nat) (_ : j < 16), ((parse B)[j]).toNat =
    (B[4 * j]).toNat * 2 ^ 24 + (B[4 * j + 1]).toNat * 2 ^ 16 + (B[4 * j + 2]).toNat * 2 ^ 8 + (B[4 * j + 3]).toNat) ∧
  (∀ (m : Memory) (j : Fin 16), memRead4 m j = (parse m.block)[j.val])

/-- 42_schedule.md R131: the first sixteen words are the block's, and each further word is the stated sum modulo 2^32. -/
def Obligations.ScheduleRecurrence : Prop :=
  ∀ B : Block,
    (∀ j (_ : j < 16), (schedule B)[j] = (parse B)[j]) ∧
    (∀ i (_ : 16 ≤ i) (_ : i < 64), (schedule B)[i] =
      (schedule B)[i - 16] + smallSigma0 (schedule B)[i - 15] + (schedule B)[i - 7] + smallSigma1 (schedule B)[i - 2])

/-- 42_schedule.md R132: the sliding window of sixteen words holds the schedule's words as the rounds reach them. -/
def Obligations.WindowHoldsTheScheduleWords : Prop :=
  ∀ (S : Chain) (B : Block) (n k : Nat) (hn : n ≤ 64) (_ : k < 16) (_ : n + k < 64),
    (coreAfter S B n hn).window[k] = (schedule B)[n + k]

/-- 00_scope.md R9, 42_schedule.md R132: an iterative core that holds sixteen schedule words computes the same compression. -/
def Obligations.IterativeCoreRefinesCompress : Prop :=
  ∀ (S : Chain) (B : Block), compressIterative S B = compress S B

/-- 43_compress.md R143, R144, R145: one round, all eight assignments from the values at its start. -/
def Obligations.RoundUpdatesTheWorkingVariables : Prop :=
  ∀ (v : WorkVars) (k w : Word),
    let t1 := v.h + (rotr v.e 6 ^^^ rotr v.e 11 ^^^ rotr v.e 25) + ((v.e &&& v.f) ^^^ (~~~v.e &&& v.g)) + k + w
    let t2 := (rotr v.a 2 ^^^ rotr v.a 13 ^^^ rotr v.a 22) + ((v.a &&& v.b) ^^^ (v.a &&& v.c) ^^^ (v.b &&& v.c))
    roundStep v k w = ⟨t1 + t2, v.a, v.b, v.c, v.d + t1, v.e, v.f, v.g⟩

/-- 43_compress.md R142, R147, R148: the working variables start as the state, the rounds run `0 .. 63` in order with `K[i]` and
`w[i]`, and the result adds the variables back to the state, word by word. -/
def Obligations.CompressIsSixtyFourRoundsAndFeedForward : Prop :=
  ∀ (S : Chain) (B : Block), ∃ v : Nat → WorkVars,
    v 0 = ⟨S[0], S[1], S[2], S[3], S[4], S[5], S[6], S[7]⟩ ∧
    (∀ i (_ : i < 64), v (i + 1) = roundStep (v i) Config.K[i] (schedule B)[i]) ∧
    compress S B = #v[S[0] + (v 64).a, S[1] + (v 64).b, S[2] + (v 64).c, S[3] + (v 64).d,
      S[4] + (v 64).e, S[5] + (v 64).f, S[6] + (v 64).g, S[7] + (v 64).h]

/-! ### FINALIZE -/

/-- 44_finalize.md R161: under the precondition the message length is exact in 64 bits, a multiple of 8, the length in bits of
the message stream, and is the wiring `block_count[54:0] ++ buffer_len[5:0] ++ 0b000`. -/
def Obligations.MessageLengthIsWiring : Prop :=
  ∀ s : State, s.blockCount.toNat < 2 ^ 55 →
    totalBits s ≤ 2 ^ 64 - 8 ∧ totalBits s % 8 = 0 ∧
    totalBits s = s.bufferLen.toNat * 8 + s.blockCount.toNat * 512 ∧
    (∀ m, Absorbed m s → totalBits s = 8 * m.length) ∧
    BitVec.ofNat 64 (totalBits s) = s.blockCount.extractLsb' 0 55 ++ s.bufferLen ++ 0b000#3

/-- 44_finalize.md R162, R163, R165, R170: the number of zero bytes is `(55 − n) mod 64`, and the padding completes one block,
or two when fewer than nine bytes are free. -/
def Obligations.PaddingCompletesOneOrTwoBlocks : Prop :=
  ∀ s : State,
    (paddingLen (totalBits s) : Int) = 8 * ((55 - (s.bufferLen.toNat : Int)) % 64) ∧
    paddingLen (totalBits s) ≤ 504 ∧
    (s.bufferLen.toNat ≤ 55 → s.bufferLen.toNat + (padding (totalBits s)).length = 64) ∧
    (56 ≤ s.bufferLen.toNat → s.bufferLen.toNat + (padding (totalBits s)).length = 128)

/-- 44_finalize.md R165, R171, old `buffer_len ≤ 55`: `FINALIZE` compresses one block, the bytes held, `0x80`, zeros, and the
length big-endian; it clears the buffer, counts the block, sets `finalized`, and writes nothing else. -/
def Obligations.FinalizeInOneBlock : Prop :=
  ∀ s : State, s.buffer.wf = true → s.fault = false → s.finalized = false → s.blockCount.toNat < 2 ^ 55 →
    s.bufferLen.toNat ≤ 55 →
    ∃ t, exec .finalize s = .next t ∧
      t.h = compress s.h (Vector.ofFn fun i =>
        if i.val < s.bufferLen.toNat then memRead1 s.buffer (BitVec.ofNat 6 i.val)
        else if i.val = s.bufferLen.toNat then 0x80
        else if i.val < 56 then 0
        else (be64 (BitVec.ofNat 64 (s.blockCount.toNat * 512 + s.bufferLen.toNat * 8))).toList.getD (i.val - 56) 0) ∧
      (∀ a, memRead1 t.buffer a = 0) ∧ t.bufferLen = 0 ∧ t.blockCount = s.blockCount + 1 ∧ t.finalized = true ∧
      digestOut t = some (digestBytes t.h) ∧
      t.fault = s.fault ∧ t.faultCause = s.faultCause ∧ t.pending = s.pending

/-- 44_finalize.md R165, R171, old `buffer_len ≥ 56`: `FINALIZE` compresses two blocks, the bytes held, `0x80` and zeros, then
56 zeros and the length. -/
def Obligations.FinalizeInTwoBlocks : Prop :=
  ∀ s : State, s.buffer.wf = true → s.fault = false → s.finalized = false → s.blockCount.toNat < 2 ^ 55 →
    56 ≤ s.bufferLen.toNat →
    ∃ t, exec .finalize s = .next t ∧
      t.h = compress
        (compress s.h (Vector.ofFn fun i =>
          if i.val < s.bufferLen.toNat then memRead1 s.buffer (BitVec.ofNat 6 i.val)
          else if i.val = s.bufferLen.toNat then 0x80
          else 0))
        (Vector.ofFn fun i =>
          if i.val < 56 then 0
          else (be64 (BitVec.ofNat 64 (s.blockCount.toNat * 512 + s.bufferLen.toNat * 8))).toList.getD (i.val - 56) 0) ∧
      (∀ a, memRead1 t.buffer a = 0) ∧ t.bufferLen = 0 ∧ t.blockCount = s.blockCount + 2 ∧ t.finalized = true ∧
      digestOut t = some (digestBytes t.h) ∧
      t.fault = s.fault ∧ t.faultCause = s.faultCause ∧ t.pending = s.pending

/-- 44_finalize.md R169: with `block_count ≥ 2^55`, that is exact `total_bits ≥ 2^64`, `FINALIZE` has no meaning; the test is on
the register. -/
def Obligations.FinalizeOfATooLongMessageIsRefused : Prop :=
  ∀ s : State, s.fault = false → s.finalized = false →
    (exec .finalize s = .refused .messageTooLong ↔ 2 ^ 55 ≤ s.blockCount.toNat) ∧
    (2 ^ 55 ≤ s.blockCount.toNat ↔ 2 ^ 64 ≤ totalBits s)

/-! ### Outputs -/

/-- 10_state.md R33, R34, 20_memory.md R53: while `digest_valid`, the digest is the accumulator, each word big-endian in word
order, and the wide bus carries the same bytes; otherwise it has no value (log entry 7). -/
def Obligations.DigestOutputIsTheChainBigEndian : Prop :=
  ∀ s : State,
    (digestValid s = true ↔ s.finalized = true ∧ s.fault = false) ∧
    (digestValid s = true → ∃ (d : Digest) (w : BitVec 256), digestOut s = some d ∧ digestBitsOut s = some w ∧
      (∀ j (_ : j < 8), d[4 * j] = (s.h[j]).extractLsb' 24 8 ∧ d[4 * j + 1] = (s.h[j]).extractLsb' 16 8 ∧
        d[4 * j + 2] = (s.h[j]).extractLsb' 8 8 ∧ d[4 * j + 3] = (s.h[j]).extractLsb' 0 8) ∧
      (∀ k (_ : k < 32), d[k] = w.extractLsb' (248 - 8 * k) 8)) ∧
    (digestValid s = false → digestOut s = none ∧ digestBitsOut s = none)

/-- 10_state.md R34: after `FINALIZE` nothing changes `state` until `INIT` or reset, and either of those clears
`digest_valid`. -/
def Obligations.ValidDigestIsImmutable : Prop :=
  ∀ s t : State, digestValid s = true → step s = .next t →
    (t.h = s.h ∨ digestValid t = false) ∧
    (digestValid t = true → digestOut t = digestOut s) ∧
    ((∃ rest, s.pending = .reset :: rest) ∨ (∃ rest, s.pending = .command 0x100 :: rest) → digestValid t = false) ∧
    (¬((∃ rest, s.pending = .reset :: rest) ∨ ∃ rest, s.pending = .command 0x100 :: rest) → t.h = s.h)

/-- 10_state.md R35 point 2, 93_implementation_defined.md U13: the bytes of `buffer` at or above `buffer_len` are never
observable: states that differ in them only step alike and show the host the same outputs (while an
event is outstanding, as log entry 14 has them: DESIGN CHOICE). -/
def Obligations.HiddenBytesAreUnobservable : Prop :=
  ∀ s t s' : State, SameButHidden s t → s.buffer.wf = true → t.buffer.wf = true → step s = .next s' →
    ∃ t', step t = .next t' ∧ SameButHidden s' t' ∧ outPorts s' = outPorts t'

/-- 70_reset_and_hazards.md R208: the sequence of operations depends only on the number of bytes absorbed, never on their
values: states alike in control step to states alike in control, when the events differ at most in the byte absorbed. -/
def Obligations.ControlDoesNotDependOnData : Prop :=
  ∀ (s t s' : State) (e f : HostEvent) (srest trest : List HostEvent),
    SameControl s t → s.pending = e :: srest → t.pending = f :: trest →
    (e = f ∨ ∃ v w, e = .command (encode (.absorb v)) ∧ f = .command (encode (.absorb w))) →
    step s = .next s' → ∃ t', step t = .next t' ∧ SameControl s' t'

/-! ### Invariants and the whole engine -/

/-- The invariant of 10_state.md R32 holds right after reset. -/
def Obligations.ResetStateMeetsTheInvariant : Prop := Inv State.reset

/-- 10_state.md R32, items 1 to 4: every step keeps the invariant, from every state that has it. -/
def Obligations.EveryStepKeepsTheInvariant : Prop :=
  ∀ s t : State, Inv s → step s = .next t → Inv t

/-- 10_state.md R32 item 5: after `INIT` or reset the message stream is empty. -/
def Obligations.CreationStartsTheStream : Prop :=
  Absorbed [] State.reset ∧ ∀ s : State, s.fault = false → ∃ t, exec .init s = .next t ∧ Absorbed [] t ∧ t.buffer.wf = true

/-- 10_state.md R32 item 5, 40_init_absorb.md R93: `ABSORB v` makes the stream one byte longer, while fewer than 2^64 blocks have
been compressed; after `k` bytes, `buffer_len = k mod 64` and `block_count = floor(k / 64)`. -/
def Obligations.AbsorbExtendsTheStream : Prop :=
  ∀ (m : List Byte) (s : State) (v : Byte), Absorbed m s → s.buffer.wf = true → m.length + 1 < 2 ^ 70 →
    ∃ t, exec (.absorb v) s = .next t ∧ Absorbed (m ++ [v]) t ∧ t.buffer.wf = true ∧
      t.bufferLen.toNat = (m.length + 1) % 64 ∧ t.blockCount.toNat = (m.length + 1) / 64

/-- 44_finalize.md R168, 70_reset_and_hazards.md R207: `FINALIZE` after the message `m` presents the digest of `m`, having
compressed `floor((L + 8) / 64) + 1` blocks in all. -/
def Obligations.FinalizePresentsTheMessageDigest : Prop :=
  ∀ (m : List Byte) (s : State), Absorbed m s → s.buffer.wf = true → m.length < 2 ^ 61 →
    ∃ t, exec .finalize s = .next t ∧ digestOut t = some (messageDigest m) ∧
      t.blockCount.toNat = (m.length + 8) / 64 + 1 ∧ t.pending = s.pending

/-- 44_finalize.md R168: for a message of fewer than 2^61 bytes, `HASH m` from any state without a fault leaves the digest of
`m` at the output. That the program's words are delivered as a stream, and that `cmd_ready` is 1 when nothing is outstanding, are
the model's choices (log entries 1 and 9, DESIGN CHOICE). -/
def Obligations.HashPresentsTheMessageDigest : Prop :=
  ∀ (m : List Byte) (s : State), s.fault = false → m.length < 2 ^ 61 →
    ∃ t, run (m.length + 2) (deliver (hashWords m) s) = .next t ∧ digestOut t = some (messageDigest m) ∧
      Safe t ∧ cmdReady t = true
end

