-- ==== Sys2Proof/Laws/Memory.lean ====
section
/-! SUPPORT. The laws of the block buffer: read after write, canonical form, and equality of canonical buffers. -/

namespace Sys2Proof.Machine.Memory

theorem wfFrom_cons {lo k : Nat} {b : Byte} {rest : Memory} :
    wfFrom lo ((k, b) :: rest) = true ↔ lo ≤ k ∧ k < 64 ∧ b ≠ 0 ∧ wfFrom (k + 1) rest = true := by
  simp [wfFrom, and_assoc]

theorem wfFrom_mono {lo lo' : Nat} {m : Memory} (hlo : lo' ≤ lo) (h : wfFrom lo m = true) : wfFrom lo' m = true := by
  cases m with
  | nil => rfl
  | cons c rest =>
    obtain ⟨k, b⟩ := c
    rw [wfFrom_cons] at h ⊢
    exact ⟨by omega, h.2⟩

/-- An address below the first listed one reads as unlisted. -/
theorem readAt_below {lo a : Nat} {m : Memory} (h : wfFrom lo m = true) (ha : a < lo) : readAt m a = 0 := by
  induction m generalizing lo with
  | nil => rfl
  | cons c rest ih =>
    obtain ⟨k, b⟩ := c
    rw [wfFrom_cons] at h
    have hk : k ≠ a := by omega
    simp only [readAt, if_neg hk]
    exact ih h.2.2.2 (by omega)

theorem readAt_consCell {a : Nat} {rest : Memory} (h : wfFrom (a + 1) rest = true) (v : Byte) (b : Nat) :
    readAt (consCell a v rest) b = if b = a then v else readAt rest b := by
  unfold consCell
  split
  · next hv =>
    split
    · next hb => rw [hb, readAt_below h (Nat.lt_succ_self a), hv]
    · rfl
  · simp only [readAt, eq_comm]

theorem wfFrom_consCell {lo a : Nat} {rest : Memory} (hlo : lo ≤ a) (ha : a < 64) (h : wfFrom (a + 1) rest = true)
    (v : Byte) : wfFrom lo (consCell a v rest) = true := by
  unfold consCell
  split
  · exact wfFrom_mono (by omega) h
  · next hv => exact wfFrom_cons.mpr ⟨hlo, ha, hv, h⟩

/-- Read after write, at every address. -/
theorem readAt_writeAt {lo : Nat} {m : Memory} (h : wfFrom lo m = true) (a b : Nat) (v : Byte) :
    readAt (writeAt m a v) b = if b = a then v else readAt m b := by
  induction m generalizing lo with
  | nil => exact readAt_consCell rfl v b
  | cons c rest ih =>
    obtain ⟨k, x⟩ := c
    have hc := wfFrom_cons.mp h
    unfold writeAt
    split
    · next hlt => exact readAt_consCell (wfFrom_cons.mpr ⟨hlt, hc.2⟩) v b
    · split
      · next heq =>
        subst heq
        rw [readAt_consCell hc.2.2.2]
        split
        · rfl
        · next hb => simp only [readAt, if_neg (Ne.symm hb)]
      · next hne =>
        simp only [readAt, ih hc.2.2.2]
        split
        · next hb => rw [if_neg (by omega)]
        · rfl

/-- A write inside the buffer keeps the canonical form. -/
theorem wfFrom_writeAt {lo : Nat} {m : Memory} (h : wfFrom lo m = true) {a : Nat} (v : Byte) (hlo : lo ≤ a) (ha : a < 64) :
    wfFrom lo (writeAt m a v) = true := by
  induction m generalizing lo with
  | nil => exact wfFrom_consCell hlo ha rfl v
  | cons c rest ih =>
    obtain ⟨k, x⟩ := c
    have hc := wfFrom_cons.mp h
    unfold writeAt
    split
    · next hlt => exact wfFrom_consCell hlo ha (wfFrom_cons.mpr ⟨hlt, hc.2⟩) v
    · split
      · next heq => subst heq; exact wfFrom_consCell hlo ha hc.2.2.2 v
      · next hlt hne => exact wfFrom_cons.mpr ⟨hc.1, hc.2.1, hc.2.2.1, ih hc.2.2.2 (by omega)⟩

@[simp] theorem wf_clear : wf clear = true := rfl
@[simp] theorem readAt_clear (a : Nat) : readAt clear a = 0 := rfl
@[simp] theorem readAt_nil (a : Nat) : readAt [] a = 0 := rfl

/-- Every byte outside the 64 of the buffer reads as unlisted. -/
theorem readAt_above {lo : Nat} {m : Memory} (h : wfFrom lo m = true) {a : Nat} (ha : 64 ≤ a) : readAt m a = 0 := by
  induction m generalizing lo with
  | nil => rfl
  | cons c rest ih =>
    obtain ⟨k, x⟩ := c
    rw [wfFrom_cons] at h
    simp [readAt, show k ≠ a by omega, ih h.2.2.2]

/-- Canonical buffers that read alike are equal. -/
theorem eq_of_readAt_from {lo : Nat} {m m' : Memory} (h : wfFrom lo m = true) (h' : wfFrom lo m' = true)
    (hr : ∀ a, readAt m a = readAt m' a) : m = m' := by
  induction m generalizing lo m' with
  | nil =>
    cases m' with
    | nil => rfl
    | cons c rest =>
      obtain ⟨k, b⟩ := c
      have := hr k
      simp only [readAt, if_true] at this
      exact absurd this.symm (wfFrom_cons.mp h').2.2.1
  | cons c rest ih =>
    obtain ⟨k, b⟩ := c
    have hc := wfFrom_cons.mp h
    cases m' with
    | nil =>
      have := hr k
      simp only [readAt, if_true] at this
      exact absurd this hc.2.2.1
    | cons c' rest' =>
      obtain ⟨k', b'⟩ := c'
      have hc' := wfFrom_cons.mp h'
      have hk : k = k' := by
        rcases lt_trichotomy k k' with hlt | heq | hgt
        · have := hr k
          simp only [readAt, if_true, if_neg (show k' ≠ k by omega), readAt_below hc'.2.2.2 (show k < k' + 1 by omega)] at this
          exact absurd this hc.2.2.1
        · exact heq
        · have := hr k'
          simp only [readAt, if_true, if_neg (show k ≠ k' by omega), readAt_below hc.2.2.2 (show k' < k + 1 by omega)] at this
          exact absurd this.symm hc'.2.2.1
      subst hk
      have hb : b = b' := by simpa [readAt] using hr k
      subst hb
      have hrest : rest = rest' := by
        apply ih hc.2.2.2 hc'.2.2.2
        intro a
        by_cases ha : k = a
        · subst ha
          rw [readAt_below hc.2.2.2 (by omega), readAt_below hc'.2.2.2 (by omega)]
        · simpa [readAt, ha] using hr a
      rw [hrest]

theorem eq_of_readAt {m m' : Memory} (h : wf m = true) (h' : wf m' = true)
    (hr : ∀ a, a < 64 → readAt m a = readAt m' a) : m = m' :=
  eq_of_readAt_from h h' fun a => by
    by_cases ha : a < 64
    · exact hr a ha
    · rw [readAt_above h (by omega), readAt_above h' (by omega)]

@[simp] theorem block_getElem (m : Memory) (i : Nat) (hi : i < 64) : m.block[i] = readAt m i := by
  simp [block]

/-- A canonical buffer whose bytes are all 0 is the cleared one. -/
theorem eq_clear {m : Memory} (h : wf m = true) (hz : ∀ a, a < 64 → readAt m a = 0) : m = clear :=
  eq_of_readAt h rfl fun a ha => by rw [hz a ha, readAt_clear]

end Sys2Proof.Machine.Memory

namespace Sys2Proof.Machine

/-- Read after write at the buffer's own addresses (20_memory.md R59). -/
theorem memRead1_memWrite1 {m : Memory} (h : m.wf = true) (a b : BitVec 6) (v : Byte) :
    memRead1 (memWrite1 m a v) b = if b = a then v else memRead1 m b := by
  simp only [memRead1, memWrite1, Memory.readAt_writeAt h, BitVec.toNat_inj]

theorem wf_memWrite1 {m : Memory} (h : m.wf = true) (a : BitVec 6) (v : Byte) : (memWrite1 m a v).wf = true :=
  Memory.wfFrom_writeAt h v (by omega) (by have := a.isLt; omega)

@[simp] theorem memRead1_clear (a : BitVec 6) : memRead1 Memory.clear a = 0 := rfl

end Sys2Proof.Machine
end

