-- ==== Sys2Proof/Laws/Absorption.lean ====
section
/-! SUPPORT. What `absorb_byte` does, once for each of its two cases (40_init_absorb.md R93), what it never touches, and what
absorbing a run of bytes inside one block does. -/

namespace Sys2Proof.Machine

theorem lenCarry_iff (n : BitVec 6) : lenCarry n = true ↔ n.toNat = 63 := by
  simp [lenCarry]

theorem lenCarry_false_iff (n : BitVec 6) : lenCarry n = false ↔ n.toNat < 63 := by
  have := n.isLt
  rw [Bool.eq_false_iff, Ne, lenCarry_iff]
  omega

/-- The buffer does not fill: 0 ≤ n ≤ 62 in 40_init_absorb.md R93. -/
theorem absorbByte_partial {s : State} (h : s.bufferLen.toNat < 63) (v : Byte) :
    absorbByte v s = { s with buffer := memWrite1 s.buffer s.bufferLen v, bufferLen := s.bufferLen + 1 } := by
  simp [absorbByte, (lenCarry_false_iff _).mpr h]

/-- The buffer fills: n = 63 in 40_init_absorb.md R93. -/
theorem absorbByte_full {s : State} (h : s.bufferLen.toNat = 63) (v : Byte) :
    absorbByte v s =
      { s with
        h := compress s.h (memWrite1 s.buffer s.bufferLen v).block
        buffer := Memory.clear
        blockCount := s.blockCount + 1
        bufferLen := 0 } := by
  simp [absorbByte, (lenCarry_iff _).mpr h]

/-- The two cases together. -/
theorem absorbByte_cases (v : Byte) (s : State) :
    (s.bufferLen.toNat < 63 ∧
      absorbByte v s = { s with buffer := memWrite1 s.buffer s.bufferLen v, bufferLen := s.bufferLen + 1 }) ∨
    (s.bufferLen.toNat = 63 ∧
      absorbByte v s =
        { s with
          h := compress s.h (memWrite1 s.buffer s.bufferLen v).block
          buffer := Memory.clear
          blockCount := s.blockCount + 1
          bufferLen := 0 }) := by
  have := s.bufferLen.isLt
  rcases Nat.lt_or_ge s.bufferLen.toNat 63 with h | h
  · exact .inl ⟨h, absorbByte_partial h v⟩
  · exact .inr ⟨by omega, absorbByte_full (by omega) v⟩

section Frame
variable (v : Byte) (vs : List Byte) (s : State)

@[simp] theorem absorbByte_finalized : (absorbByte v s).finalized = s.finalized := by
  obtain ⟨-, h⟩ | ⟨-, h⟩ := absorbByte_cases v s <;> rw [h]

@[simp] theorem absorbByte_fault : (absorbByte v s).fault = s.fault := by
  obtain ⟨-, h⟩ | ⟨-, h⟩ := absorbByte_cases v s <;> rw [h]

@[simp] theorem absorbByte_faultCause : (absorbByte v s).faultCause = s.faultCause := by
  obtain ⟨-, h⟩ | ⟨-, h⟩ := absorbByte_cases v s <;> rw [h]

@[simp] theorem absorbByte_pending : (absorbByte v s).pending = s.pending := by
  obtain ⟨-, h⟩ | ⟨-, h⟩ := absorbByte_cases v s <;> rw [h]

@[simp] theorem absorbBytes_nil : absorbBytes [] s = s := rfl
@[simp] theorem absorbBytes_cons : absorbBytes (v :: vs) s = absorbBytes vs (absorbByte v s) := rfl

theorem absorbBytes_append (us : List Byte) : absorbBytes (us ++ vs) s = absorbBytes vs (absorbBytes us s) :=
  List.foldl_append

@[simp] theorem absorbBytes_finalized : (absorbBytes vs s).finalized = s.finalized := by
  induction vs generalizing s with
  | nil => rfl
  | cons v vs ih => simp [ih]

@[simp] theorem absorbBytes_fault : (absorbBytes vs s).fault = s.fault := by
  induction vs generalizing s with
  | nil => rfl
  | cons v vs ih => simp [ih]

@[simp] theorem absorbBytes_faultCause : (absorbBytes vs s).faultCause = s.faultCause := by
  induction vs generalizing s with
  | nil => rfl
  | cons v vs ih => simp [ih]

@[simp] theorem absorbBytes_pending : (absorbBytes vs s).pending = s.pending := by
  induction vs generalizing s with
  | nil => rfl
  | cons v vs ih => simp [ih]

@[simp] theorem finalizeMessage_fault : (finalizeMessage s).fault = s.fault := absorbBytes_fault _ s
@[simp] theorem finalizeMessage_faultCause : (finalizeMessage s).faultCause = s.faultCause := absorbBytes_faultCause _ s
@[simp] theorem finalizeMessage_pending : (finalizeMessage s).pending = s.pending := absorbBytes_pending _ s

end Frame

/-- Every absorbed byte keeps the buffer canonical. -/
theorem absorbByte_wf {s : State} (h : s.buffer.wf = true) (v : Byte) : (absorbByte v s).buffer.wf = true := by
  obtain ⟨-, e⟩ | ⟨-, e⟩ := absorbByte_cases v s <;> rw [e]
  · exact wf_memWrite1 h _ v
  · exact Memory.wf_clear

theorem absorbBytes_wf {s : State} (h : s.buffer.wf = true) (vs : List Byte) : (absorbBytes vs s).buffer.wf = true := by
  induction vs generalizing s with
  | nil => exact h
  | cons v vs ih => exact ih (absorbByte_wf h v)

theorem toNat_succ_len {n : BitVec 6} (h : n.toNat < 63) : (n + 1).toNat = n.toNat + 1 := by
  rw [BitVec.toNat_add]
  exact Nat.mod_eq_of_lt (by simpa using by omega)

/-- A run of bytes that leaves room in the block: only `buffer` and `buffer_len` change. -/
theorem absorbBytes_within {s : State} (hwf : s.buffer.wf = true) (vs : List Byte)
    (hlen : s.bufferLen.toNat + vs.length < 64) :
    (absorbBytes vs s).h = s.h ∧ (absorbBytes vs s).blockCount = s.blockCount ∧
    (absorbBytes vs s).bufferLen.toNat = s.bufferLen.toNat + vs.length ∧
    ∀ a, (absorbBytes vs s).buffer.readAt a =
      if s.bufferLen.toNat ≤ a ∧ a < s.bufferLen.toNat + vs.length then vs.getD (a - s.bufferLen.toNat) 0
      else s.buffer.readAt a := by
  induction vs generalizing s with
  | nil => simp
  | cons v vs ih =>
    simp only [List.length_cons] at hlen ⊢
    have hlt : s.bufferLen.toNat < 63 := by omega
    obtain ⟨h1, h2, h3, h4⟩ := ih (absorbByte_wf hwf v) (by rw [absorbByte_partial hlt, toNat_succ_len hlt]; omega)
    rw [absorbBytes_cons]
    rw [absorbByte_partial hlt] at h1 h2 h3 h4 ⊢
    rw [toNat_succ_len hlt] at h3 h4
    refine ⟨h1, h2, by omega, fun a => ?_⟩
    rw [h4, memWrite1, Memory.readAt_writeAt hwf]
    by_cases ha : a = s.bufferLen.toNat
    · subst ha
      simp
    · by_cases hr : s.bufferLen.toNat + 1 ≤ a ∧ a < s.bufferLen.toNat + 1 + vs.length
      · rw [if_pos hr, if_pos (by omega)]
        obtain ⟨k, hk⟩ : ∃ k, a - s.bufferLen.toNat = k + 1 := ⟨a - s.bufferLen.toNat - 1, by omega⟩
        rw [hk, List.getD_cons_succ, show a - (s.bufferLen.toNat + 1) = k by omega]
      · rw [if_neg hr, if_neg ha, if_neg (by omega)]

/-- A run of bytes that ends with the block's last one: one compression of the bytes held followed by the run. -/
theorem absorbBytes_fill {s : State} (hwf : s.buffer.wf = true) (vs : List Byte)
    (hlen : s.bufferLen.toNat + vs.length = 64) :
    absorbBytes vs s =
      { s with
        h := compress s.h (Vector.ofFn fun i =>
          if i.val < s.bufferLen.toNat then s.buffer.readAt i.val else vs.getD (i.val - s.bufferLen.toNat) 0)
        buffer := Memory.clear
        blockCount := s.blockCount + 1
        bufferLen := 0 } := by
  have hn := s.bufferLen.isLt
  obtain ⟨us, v, rfl⟩ : ∃ us v, vs = us ++ [v] :=
    ⟨vs.dropLast, vs.getLast (by rintro rfl; simp at hlen; omega), (List.dropLast_append_getLast _).symm⟩
  simp only [List.length_append, List.length_cons, List.length_nil] at hlen
  obtain ⟨h1, h2, h3, h4⟩ := absorbBytes_within hwf us (by omega)
  rw [absorbBytes_append, absorbBytes_cons, absorbBytes_nil, absorbByte_full (by omega), h1, h2]
  have hblock : (memWrite1 (absorbBytes us s).buffer (absorbBytes us s).bufferLen v).block =
      Vector.ofFn fun i : Fin 64 =>
        if i.val < s.bufferLen.toNat then s.buffer.readAt i.val else (us ++ [v]).getD (i.val - s.bufferLen.toNat) 0 := by
    refine Vector.ext fun i hi => ?_
    rw [Memory.block_getElem, memWrite1, Memory.readAt_writeAt (absorbBytes_wf hwf us), h3, h4, Vector.getElem_ofFn]
    by_cases hlast : i = s.bufferLen.toNat + us.length
    · subst hlast
      simp
    · by_cases hlow : i < s.bufferLen.toNat
      · rw [if_neg hlast, if_neg (by omega), if_pos hlow]
      · rw [if_neg hlast, if_pos (by omega), if_neg hlow, List.getD_append _ _ _ _ (by show i - _ < _; omega)]
  rw [hblock]
  have e1 := absorbBytes_finalized us s
  have e2 := absorbBytes_fault us s
  have e3 := absorbBytes_faultCause us s
  have e4 := absorbBytes_pending us s
  simp only [e1, e2, e3, e4]

end Sys2Proof.Machine
end

