-- ==== Sys2Proof/Laws/Bytes.lean ====
section
/-! SUPPORT. The big-endian conversions as numbers (20_memory.md R51 to R53). -/

namespace Sys2Proof.Machine

/-- Concatenation as a sum: the first part is the more significant (00_scope.md R6). -/
theorem toNat_append_eq {n m : Nat} (x : BitVec n) (y : BitVec m) : (x ++ y).toNat = x.toNat * 2 ^ m + y.toNat := by
  rw [BitVec.toNat_append, ← Nat.shiftLeft_add_eq_or_of_lt y.isLt, Nat.shiftLeft_eq]

theorem wordOfBytes_toNat (b0 b1 b2 b3 : Byte) :
    (wordOfBytes b0 b1 b2 b3).toNat = ((b0.toNat * 2 ^ 8 + b1.toNat) * 2 ^ 8 + b2.toNat) * 2 ^ 8 + b3.toNat := by
  unfold wordOfBytes
  rw [toNat_append_eq, toNat_append_eq, toNat_append_eq]

@[simp] theorem be32_getElem (w : Word) (k : Nat) (h : k < 4) : (be32 w)[k] = w.extractLsb' (24 - 8 * k) 8 := by
  match k, h with
  | 0, _ => rfl
  | 1, _ => rfl
  | 2, _ => rfl
  | 3, _ => rfl

@[simp] theorem digestBytes_getElem (h : Chain) (k : Nat) (hk : k < 32) :
    (digestBytes h)[k] = (h[k / 4]).extractLsb' (24 - 8 * (k % 4)) 8 := by
  simp [digestBytes]

end Sys2Proof.Machine
end

