-- ==== Sys2Proof/Laws/Config.lean ====
section
/-! SUPPORT. How the round constants stand in their table (43_compress.md R141). -/

namespace Sys2Proof.Config

/-- `K[n]` is the entry of row `n / 4` at place `n mod 4`. -/
theorem K_getElem (n : Nat) (h : n < 64) : K[n] = kTable[n / 4][n % 4] := by
  simp [K]

end Sys2Proof.Config
end

