-- ==== Sys2Proof/Laws/Encoding.lean ====
section
/-! SUPPORT. The two fields of a command word, and what the decoder answers for each operation code. -/

namespace Sys2Proof

open Sys2Proof.Machine (opField dataField absorbOperand)

@[simp] theorem opField_append (op : BitVec 2) (data : Byte) : opField (op ++ data) = op := by
  refine BitVec.eq_of_getLsbD_eq fun i hi => ?_
  rw [opField, BitVec.getLsbD_extractLsb', BitVec.getLsbD_append]
  simp [hi]

@[simp] theorem dataField_append (op : BitVec 2) (data : Byte) : dataField (op ++ data) = data := by
  refine BitVec.eq_of_getLsbD_eq fun i hi => ?_
  rw [dataField, BitVec.getLsbD_extractLsb', BitVec.getLsbD_append]
  simp [hi]

/-- A command word is its two fields (30_encoding.md R70). -/
theorem fields_append (cmd : CmdWord) : opField cmd ++ dataField cmd = cmd := by
  refine BitVec.eq_of_getLsbD_eq fun i hi => ?_
  rw [BitVec.getLsbD_append, opField, dataField, BitVec.getLsbD_extractLsb', BitVec.getLsbD_extractLsb']
  by_cases h : i < 8
  · simp [h]
  · simp [h, show i - 8 < 2 by omega, show 8 + (i - 8) = i by omega]

/-- What the decoder answers, by operation code and data (30_encoding.md R74). -/
theorem decode_append (op : BitVec 2) (data : Byte) :
    decode (op ++ data) =
      if op = 0b01#2 then (if data = 0 then .ok .init else .error .initDataNonzero)
      else if op = 0b10#2 then .ok (.absorb data)
      else if op = 0b11#2 then (if data = 0 then .ok .finalize else .error .finalizeDataNonzero)
      else .error .reservedOp := by
  unfold decode absorbOperand
  simp only [opField_append, dataField_append]

end Sys2Proof
end

