-- ==== Sys2Proof/Laws/PerInstr.lean ====
section
/-! SUPPORT. Statements about every command as syntax, one lemma for each constructor (LAWS.json "per_instruction"). -/

/-- `RowMatch`: the command's word selects exactly one row of the opcode table, its own (30_encoding.md R71: "the rows do not
overlap"). -/
def Sys2Proof.Laws.RowMatch.Statement (i : Sys2Proof.Instr) : Prop :=
  (Sys2Proof.opcodeRows.filter fun r => r.selects (Sys2Proof.encode i)).map Sys2Proof.OpcodeRow.mnemonic =
    [Sys2Proof.mnemonic i]

theorem Sys2Proof.Laws.RowMatch.init : Sys2Proof.Laws.RowMatch.Statement .init := by
  unfold Sys2Proof.Laws.RowMatch.Statement
  decide

theorem Sys2Proof.Laws.RowMatch.absorb (v : Sys2Proof.Byte) : Sys2Proof.Laws.RowMatch.Statement (.absorb v) := by
  unfold Sys2Proof.Laws.RowMatch.Statement
  revert v
  decide +kernel

theorem Sys2Proof.Laws.RowMatch.finalize : Sys2Proof.Laws.RowMatch.Statement .finalize := by
  unfold Sys2Proof.Laws.RowMatch.Statement
  decide
end

