-- ==== Sys2Proof/Laws/Schedule.lean ====
section
/-! SUPPORT. The words of a partial expansion: earlier words stay, and the newest is the stated sum (42_schedule.md R131). -/

namespace Sys2Proof.Machine

/-- Expanding further never changes a word already there. -/
theorem expandTo_getElem (w : Vector Word 16) {n m : Nat} (hnm : n ≤ m) (i : Nat) (h : i < 16 + n) :
    (expandTo w m)[i]'(by omega) = (expandTo w n)[i] := by
  induction m, hnm using Nat.le_induction with
  | base => rfl
  | succ m hm ih =>
    rw [← ih]
    simp only [expandTo]
    exact Vector.getElem_push_lt (by omega)

/-- The newest word. -/
theorem expandTo_last (w : Vector Word 16) (n : Nat) :
    (expandTo w (n + 1))[16 + n] =
      nextWord (expandTo w n)[n] (expandTo w n)[n + 1] (expandTo w n)[n + 9] (expandTo w n)[n + 14] := by
  simp only [expandTo]
  exact Vector.getElem_push_eq

/-- The window after a slide holds the words one place on (42_schedule.md R132). -/
theorem slideWindow_getElem (r : Vector Word 16) (k : Nat) (h : k < 15) : (slideWindow r)[k] = r[k + 1] := by
  interval_cases k <;> rfl

@[simp] theorem slideWindow_last (r : Vector Word 16) : (slideWindow r)[15] = nextWord r[0] r[1] r[9] r[14] := rfl

end Sys2Proof.Machine
end

