-- ==== Sys2Proof/Laws/State.lean ====
section
/-! SUPPORT. One lemma for each field of each named update of State, true by rfl, so that no proof unfolds one. -/

namespace Sys2Proof.Machine

section Raise
variable (c : FaultCause) (s : State)
@[simp] theorem raise_h : (raise c s).h = s.h := rfl
@[simp] theorem raise_buffer : (raise c s).buffer = s.buffer := rfl
@[simp] theorem raise_bufferLen : (raise c s).bufferLen = s.bufferLen := rfl
@[simp] theorem raise_blockCount : (raise c s).blockCount = s.blockCount := rfl
@[simp] theorem raise_finalized : (raise c s).finalized = s.finalized := rfl
@[simp] theorem raise_fault : (raise c s).fault = true := rfl
@[simp] theorem raise_faultCause : (raise c s).faultCause = faultCode c := rfl
@[simp] theorem raise_pending : (raise c s).pending = s.pending := rfl
end Raise

section Fresh
variable (s : State)
@[simp] theorem freshEngine_h : (freshEngine s).h = Config.IV := rfl
@[simp] theorem freshEngine_buffer : (freshEngine s).buffer = Memory.clear := rfl
@[simp] theorem freshEngine_bufferLen : (freshEngine s).bufferLen = 0 := rfl
@[simp] theorem freshEngine_blockCount : (freshEngine s).blockCount = 0 := rfl
@[simp] theorem freshEngine_finalized : (freshEngine s).finalized = false := rfl
@[simp] theorem freshEngine_fault : (freshEngine s).fault = s.fault := rfl
@[simp] theorem freshEngine_faultCause : (freshEngine s).faultCause = s.faultCause := rfl
@[simp] theorem freshEngine_pending : (freshEngine s).pending = s.pending := rfl
@[simp] theorem resetEngine_h : (resetEngine s).h = Config.IV := rfl
@[simp] theorem resetEngine_buffer : (resetEngine s).buffer = Memory.clear := rfl
@[simp] theorem resetEngine_bufferLen : (resetEngine s).bufferLen = 0 := rfl
@[simp] theorem resetEngine_blockCount : (resetEngine s).blockCount = 0 := rfl
@[simp] theorem resetEngine_finalized : (resetEngine s).finalized = false := rfl
@[simp] theorem resetEngine_fault : (resetEngine s).fault = false := rfl
@[simp] theorem resetEngine_faultCause : (resetEngine s).faultCause = 0 := rfl
@[simp] theorem resetEngine_pending : (resetEngine s).pending = s.pending := rfl
end Fresh

section Finalize
variable (s : State)
@[simp] theorem finalizeMessage_h : (finalizeMessage s).h = (absorbBytes (padding (totalBits s)) s).h := rfl
@[simp] theorem finalizeMessage_buffer :
    (finalizeMessage s).buffer = (absorbBytes (padding (totalBits s)) s).buffer := rfl
@[simp] theorem finalizeMessage_bufferLen :
    (finalizeMessage s).bufferLen = (absorbBytes (padding (totalBits s)) s).bufferLen := rfl
@[simp] theorem finalizeMessage_blockCount :
    (finalizeMessage s).blockCount = (absorbBytes (padding (totalBits s)) s).blockCount := rfl
@[simp] theorem finalizeMessage_finalized : (finalizeMessage s).finalized = true := rfl
end Finalize

section Offer
variable (cmd : CmdWord) (s : State)
@[simp] theorem offerNext_h : (offerNext cmd s).h = s.h := rfl
@[simp] theorem offerNext_buffer : (offerNext cmd s).buffer = s.buffer := rfl
@[simp] theorem offerNext_bufferLen : (offerNext cmd s).bufferLen = s.bufferLen := rfl
@[simp] theorem offerNext_blockCount : (offerNext cmd s).blockCount = s.blockCount := rfl
@[simp] theorem offerNext_finalized : (offerNext cmd s).finalized = s.finalized := rfl
@[simp] theorem offerNext_fault : (offerNext cmd s).fault = s.fault := rfl
@[simp] theorem offerNext_faultCause : (offerNext cmd s).faultCause = s.faultCause := rfl
@[simp] theorem offerNext_pending : (offerNext cmd s).pending = .command cmd :: s.pending := rfl
end Offer

/-- `faultCode` never answers 0 ("no fault") nor 3 ("never written") (60_exceptions.md R181). -/
theorem faultCode_ne (c : FaultCause) : faultCode c ≠ 0 ∧ faultCode c ≠ 3 := by cases c <;> decide

end Sys2Proof.Machine
end

