-- ==== Sys2Proof/Laws/Step.lean ====
section
/-! SUPPORT. What each command and a step can do, said once: inversion lemmas that later proofs cite instead of unfolding. -/

namespace Sys2Proof.Machine

/-- What `INIT` can do (40_init_absorb.md R90). -/
theorem execInit_cases (s : State) :
    (s.fault = true ∧ execInit s = .next s) ∨ (s.fault = false ∧ execInit s = .next (freshEngine s)) := by
  cases h : s.fault <;> simp [execInit, unlessFaulted, h]

/-- What `ABSORB v` can do (40_init_absorb.md R92). -/
theorem execAbsorb_cases (v : Byte) (s : State) :
    (s.fault = true ∧ execAbsorb v s = .next s) ∨
    (s.fault = false ∧ s.finalized = true ∧ execAbsorb v s = .next (raise .useAfterFinalize s)) ∨
    (s.fault = false ∧ s.finalized = false ∧ execAbsorb v s = .next (absorbByte v s)) := by
  cases h : s.fault <;> cases h' : s.finalized <;> simp [execAbsorb, unlessFaulted, unlessSpent, h, h']

/-- What `FINALIZE` can do (44_finalize.md R169, R171). -/
theorem execFinalize_cases (s : State) :
    (s.fault = true ∧ execFinalize s = .next s) ∨
    (s.fault = false ∧ s.finalized = true ∧ execFinalize s = .next (raise .useAfterFinalize s)) ∨
    (s.fault = false ∧ s.finalized = false ∧ s.blockCount.toNat < Config.maxBlocks ∧
      execFinalize s = .next (finalizeMessage s)) ∨
    (s.fault = false ∧ s.finalized = false ∧ Config.maxBlocks ≤ s.blockCount.toNat ∧
      execFinalize s = .refused .messageTooLong) := by
  rcases Nat.lt_or_ge s.blockCount.toNat Config.maxBlocks with hb | hb <;>
    cases h : s.fault <;> cases h' : s.finalized <;>
    simp [execFinalize, unlessFaulted, unlessSpent, h, h', hb, Nat.not_lt.mpr]

/-- What a reserved word can do (60_exceptions.md R183, R187). -/
theorem execReserved_cases (s : State) :
    (s.fault = true ∧ execReserved s = .next s) ∨
    (s.fault = false ∧ execReserved s = .next (raise .illegalCommand s)) := by
  cases h : s.fault <;> simp [execReserved, unlessFaulted, h]

section Forward
variable {s : State}

theorem exec_of_fault (h : s.fault = true) (i : Instr) : exec i s = .next s := by
  cases i <;> simp [exec, execInit, execAbsorb, execFinalize, unlessFaulted, h]

theorem execInit_of_ok (h : s.fault = false) : execInit s = .next (freshEngine s) := by
  simp [execInit, unlessFaulted, h]

theorem execAbsorb_of_spent (h : s.fault = false) (hz : s.finalized = true) (v : Byte) :
    execAbsorb v s = .next (raise .useAfterFinalize s) := by
  simp [execAbsorb, unlessFaulted, unlessSpent, h, hz]

theorem execAbsorb_of_active (h : s.fault = false) (hz : s.finalized = false) (v : Byte) :
    execAbsorb v s = .next (absorbByte v s) := by
  simp [execAbsorb, unlessFaulted, unlessSpent, h, hz]

theorem execFinalize_of_spent (h : s.fault = false) (hz : s.finalized = true) :
    execFinalize s = .next (raise .useAfterFinalize s) := by
  simp [execFinalize, unlessFaulted, unlessSpent, h, hz]

theorem execFinalize_of_active (h : s.fault = false) (hz : s.finalized = false)
    (hb : s.blockCount.toNat < Config.maxBlocks) : execFinalize s = .next (finalizeMessage s) := by
  simp [execFinalize, unlessFaulted, unlessSpent, h, hz, hb]

theorem execFinalize_of_tooLong (h : s.fault = false) (hz : s.finalized = false)
    (hb : Config.maxBlocks ≤ s.blockCount.toNat) : execFinalize s = .refused .messageTooLong := by
  simp [execFinalize, unlessFaulted, unlessSpent, h, hz, Nat.not_lt.mpr hb]

theorem execReserved_of_fault (h : s.fault = true) : execReserved s = .next s := by
  simp [execReserved, unlessFaulted, h]

theorem execReserved_of_ok (h : s.fault = false) : execReserved s = .next (raise .illegalCommand s) := by
  simp [execReserved, unlessFaulted, h]

end Forward

@[simp] theorem exec_init (s : State) : exec .init s = execInit s := rfl
@[simp] theorem exec_absorb (v : Byte) (s : State) : exec (.absorb v) s = execAbsorb v s := rfl
@[simp] theorem exec_finalize (s : State) : exec .finalize s = execFinalize s := rfl

theorem perform_ok {cmd : CmdWord} {i : Instr} (h : decode cmd = .ok i) (s : State) : perform cmd s = exec i s := by
  simp [perform, h]

theorem perform_error {cmd : CmdWord} {e : DecodeError} (h : decode cmd = .error e) (s : State) :
    perform cmd s = execReserved s := by
  simp [perform, h]

theorem step_idle {s : State} (h : s.pending = []) : step s = .next s := by
  simp [step, takeEvent, h]

theorem step_reset {s : State} {rest : List HostEvent} (h : s.pending = .reset :: rest) :
    step s = .next (resetEngine { s with pending := rest }) := by
  simp [step, takeEvent, h, performEvent]

theorem step_command {s : State} {cmd : CmdWord} {rest : List HostEvent} (h : s.pending = .command cmd :: rest) :
    step s = perform cmd { s with pending := rest } := by
  simp [step, takeEvent, h, performEvent]

/-- What a step can do: nothing, a reset, a decoded command, or a reserved word. -/
theorem step_cases (s : State) :
    (s.pending = [] ∧ step s = .next s) ∨
    (∃ rest, s.pending = .reset :: rest ∧ step s = .next (resetEngine { s with pending := rest })) ∨
    (∃ cmd i rest, s.pending = .command cmd :: rest ∧ decode cmd = .ok i ∧
      step s = exec i { s with pending := rest }) ∨
    (∃ cmd e rest, s.pending = .command cmd :: rest ∧ decode cmd = .error e ∧
      step s = execReserved { s with pending := rest }) := by
  cases hp : s.pending with
  | nil => exact .inl ⟨rfl, step_idle hp⟩
  | cons ev rest =>
    cases ev with
    | reset => exact .inr (.inl ⟨rest, rfl, step_reset hp⟩)
    | command cmd =>
      cases hd : decode cmd with
      | ok i => exact .inr (.inr (.inl ⟨cmd, i, rest, rfl, hd, (step_command hp).trans (perform_ok hd _)⟩))
      | error e => exact .inr (.inr (.inr ⟨cmd, e, rest, rfl, hd, (step_command hp).trans (perform_error hd _)⟩))

end Sys2Proof.Machine
end

