-- ==== Sys2Proof/Tests/Slice0.lean ====
section
/-! SUPPORT. Small tests, expected values from spec/95_test_vectors.md and the worked examples of the rules, and for every
statement with hypotheses a witness that meets them. -/

namespace Sys2Proof.Tests

open Sys2Proof.Machine

/-! ### Well-formedness -/

theorem test_wf_number : (AsmLine.absorb (.num 255)).wellFormed = true ∧ (AsmLine.absorb (.num 256)).wellFormed = false := by
  decide

theorem test_wf_char : (AsmLine.absorb (.char 'a')).wellFormed = true ∧ (AsmLine.absorb (.char 'é')).wellFormed = false := by
  decide

theorem test_wf_word : (AsmLine.word 0x3FF).wellFormed = true ∧ (AsmLine.word 0x400).wellFormed = false := by decide

theorem test_wf_absorbs : (AsmLine.absorbs [.num 1, .num 256]).wellFormed = false := by decide

theorem test_wf_hash : (AsmLine.hash [.char 'a', .num 300]).wellFormed = false := by decide

theorem test_wf_instr : [Instr.init, .absorb 0xFF, .finalize].all Instr.wellFormed = true := by decide

/-! ### Decoding (95_test_vectors.md section 10), and the table's rows -/

theorem test_decode_init : decode 0b0100000000 = .ok .init := by decide
theorem test_decode_absorb : decode 0b1001100001 = .ok (.absorb 0b01100001) := by decide
theorem test_decode_finalize : decode 0b1100000000 = .ok .finalize := by decide
theorem test_decode_zero : decode 0x000 = .error .reservedOp := by decide
theorem test_decode_0ff : decode 0x0FF = .error .reservedOp := by decide
theorem test_decode_180 : decode 0x180 = .error .initDataNonzero := by decide
theorem test_decode_3ff : decode 0x3FF = .error .finalizeDataNonzero := by decide
theorem test_table_word : decodeTableWord 16 0x2FF = some (.absorb 0xFF) ∧ decodeTableWord 16 0x101 = none := by decide
theorem test_table_word_too_wide : decodeTableWord 16 0x400 = none := by decide

/-! ### Word functions, schedule, compression (95_test_vectors.md sections 2, 3, 5) -/

theorem test_rotr : rotr 0x12345678 25 = 0x1a2b3c09 := by decide
theorem test_shr : shr 0x12345678 10 = 0x00048d15 := by decide
theorem test_smallSigma0 : smallSigma0 0xdeadbeef = 0xabd31b0b := by decide
theorem test_smallSigma1 : smallSigma1 0xdeadbeef = 0x689dbfec := by decide
theorem test_bigSigma0 : bigSigma0 0xdeadbeef = 0xb62e25ac := by decide
theorem test_bigSigma1 : bigSigma1 0xdeadbeef = 0x345e14a3 := by decide
theorem test_ch : ch 0xffff0000 0x12345678 0x9abcdef0 = 0x1234def0 := by decide
theorem test_maj : maj 0xf0f0f0f0 0xff00ff00 0xffff0000 = 0xfff0f000 := by decide

/-- 43_compress.md R141: the first and last entries of the table, and one inside a row. -/
theorem test_roundConstants : Config.K[0] = 0x428a2f98 ∧ Config.K[5] = 0x59f111f1 ∧ Config.K[63] = 0xc67178f2 := by decide

/-- 43_compress.md R146's worked example: round 0 of the block for "abc". -/
theorem test_round : roundStep (loadVars Config.IV) Config.K[0] 0x61626380 =
    ⟨0x5d6aebcd, 0x6a09e667, 0xbb67ae85, 0x3c6ef372, 0xfa2a4622, 0x510e527f, 0x9b05688c, 0x1f83d9ab⟩ := by decide

/-- The block `00 01 02 ... 3f`. -/
def risingBlock : Block := Vector.ofFn fun i => BitVec.ofNat 8 i.val

theorem test_schedule : (schedule risingBlock)[16] = 0x2d84894c ∧ (schedule risingBlock)[63] = 0x24a97715 := by
  decide +kernel

/-- 95_test_vectors.md section 3, and the window gives the same. -/
theorem test_compress : compress Config.IV risingBlock =
    #v[0xfc99a2df, 0x88f42a7a, 0x7bb9d180, 0x33cdc6a2, 0x0256755f, 0x9d5b9a50, 0x44a9cc31, 0x5abe84a7] := by
  decide +kernel

/-! ### The commands -/

/-- A state with `n` bytes `bs` in the buffer, at given flags, and given events still to come. -/
def stateWith (bs : List Byte) (finalized fault : Bool) (pending : List HostEvent) : State :=
  { absorbBytes bs State.reset with finalized := finalized, fault := fault, pending := pending }

/-- The next state's fields a test looks at, if there is one. -/
def nextOf (o : Host.Outcome State Fault Refusal) : Option State :=
  match o with
  | .next t => some t
  | .fault _ => none
  | .refused _ => none

theorem test_init_spent : (nextOf (exec .init (stateWith [0x61] true false []))) = some State.reset := by decide

theorem test_init_faulted : (nextOf (exec .init (stateWith [0x61] false true []))).map State.bufferLen = some 1 := by decide

/-- 40_init_absorb.md R92's worked example. -/
theorem test_absorb_first : (nextOf (exec (.absorb 0x61) State.reset)).map (fun t => (t.buffer, t.bufferLen)) =
    some ([(0, 0x61)], 1) := by decide

/-- 95_test_vectors.md section 9: the 64th byte of `00 01 ...` compresses. -/
theorem test_absorb_last :
    (nextOf (exec (.absorb 0x3f) (stateWith ((List.range 63).map (BitVec.ofNat 8)) false false []))).map
      (fun t => (digestWide t.h, t.blockCount, t.bufferLen, t.buffer.isEmpty)) =
    some (0xfc99a2df88f42a7a7bb9d18033cdc6a20256755f9d5b9a5044a9cc315abe84a7, 1, 0, true) := by decide +kernel

/-- 95_test_vectors.md section 5: the digest of "abc". -/
theorem test_finalize_abc : (nextOf (exec .finalize (stateWith [0x61, 0x62, 0x63] false false []))).bind digestBitsOut =
    some 0xba7816bf8f01cfea414140de5dae2223b00361a396177a9cb410ff61f20015ad := by decide +kernel

/-- 95_test_vectors.md section 7: 56 bytes `a`, two compressions. -/
theorem test_finalize_two : (nextOf (exec .finalize (stateWith (List.replicate 56 0x61) false false []))).map
    (fun t => (digestWide t.h, t.blockCount, t.bufferLen, t.finalized)) =
    some (0xb35439a4ac6f0948b6d6f9e3c6af0f5f590ce20f1bde7090ef7970686ec6738a, 2, 0, true) := by decide +kernel

/-! ### Steps (95_test_vectors.md section 11) -/

theorem test_step_reserved_when_spent :
    (nextOf (step (stateWith [] true false [.command 0x301]))).map (fun t => (t.fault, t.faultCause, phase t)) =
      some (true, 2, .faulted) := by decide

theorem test_step_absorb_when_spent :
    (nextOf (step (stateWith [] true false [.command 0x200]))).map (fun t => (t.fault, t.faultCause, digestValid t)) =
      some (true, 1, false) := by decide

theorem test_step_init_dropped_when_faulted :
    nextOf (step (stateWith [0x61] true true [.command 0x100])) = some (stateWith [0x61] true true []) := by decide

theorem test_fetch_first : nextOf (step (State.reset.withFetchWord 16 0x261)) = nextOf (exec (.absorb 0x61) State.reset) := by
  decide

theorem test_ports_accept :
    (acceptPorts ⟨false, true, 0x261⟩ State.reset).pending = [.command 0x261] ∧ cmdReady State.reset = true := by decide

/-! ### The assembler (95_test_vectors.md program P2) -/

theorem test_assemble : assemble [.init, .absorb (.char 'a'), .absorb (.num 0x62), .absorb (.num 99), .finalize] =
    [0x100, 0x261, 0x262, 0x263, 0x300] := by decide

theorem test_assemble_hash : assemble [.hash [.char 'a'], .word 0x000, .absorbs []] = [0x100, 0x261, 0x300, 0x000] := by decide

/-! ### Witnesses: a state and operands that meet a statement's hypotheses together, at boundary values -/

theorem witness_ReservedWordsAreTheThreeRanges :
    (∃ (s : State) (cmd : CmdWord) (e : DecodeError) (rest : List HostEvent),
      s.pending = .command cmd :: rest ∧ decode cmd = .error e ∧ phase s ≠ .faulted) ∧
    (∃ (s : State) (cmd : CmdWord) (e : DecodeError) (rest : List HostEvent),
      s.pending = .command cmd :: rest ∧ decode cmd = .error e ∧ phase s = .faulted) :=
  ⟨⟨stateWith [] true false [.command 0x1FF], 0x1FF, .initDataNonzero, [], rfl, by decide, by decide⟩,
   ⟨stateWith [] false true [.command 0x0FF], 0x0FF, .reservedOp, [], rfl, by decide, by decide⟩⟩

theorem witness_EachLegalWordSelectsOneRow :
    (∃ (cmd : CmdWord) (i : Instr), decode cmd = .ok i) ∧ (∃ (cmd : CmdWord) (e : DecodeError), decode cmd = .error e) :=
  ⟨⟨0x2FF, .absorb 0xFF, by decide⟩, ⟨0x301, .finalizeDataNonzero, by decide⟩⟩

theorem witness_AssemblerEncodings :
    (AsmLine.absorb (.num 255)).wellFormed = true ∧ (AsmLine.absorb (.char '~')).wellFormed = true ∧
    (AsmLine.word 1023).wellFormed = true := by decide

theorem witness_StepPerformsTheDecodedCommand :
    ∃ (s : State) (cmd : CmdWord) (i : Instr) (rest : List HostEvent), s.pending = .command cmd :: rest ∧ decode cmd = .ok i :=
  ⟨stateWith [] false false [.command 0x261, .reset], 0x261, .absorb 0x61, [.reset], rfl, by decide⟩

theorem witness_StepTakesExactlyOneEvent :
    (∃ s t : State, step s = .next t ∧ s.pending ≠ []) ∧ (∃ s t : State, step s = .next t ∧ s.pending = []) :=
  ⟨⟨stateWith [] false false [.command 0x100], State.reset, rfl, by decide⟩, ⟨State.reset, State.reset, rfl, rfl⟩⟩

theorem witness_OfferedWordIsPerformedNext : ∃ (nbits w : Nat) (i : Instr), decodeTableWord nbits w = some i :=
  ⟨16, 0x2FF, .absorb 0xFF, by decide⟩

/-- A state about to perform `FINALIZE` with a given block count. -/
def atBlockCount (n : BitVec 64) : State := { stateWith [] false false [.command 0x300] with blockCount := n }

theorem witness_EveryStepCompletesButOne :
    ((∃ rest, (atBlockCount (2 ^ 55)).pending = .command 0x300 :: rest) ∧ (atBlockCount (2 ^ 55)).fault = false ∧
      (atBlockCount (2 ^ 55)).finalized = false ∧ 2 ^ 55 ≤ (atBlockCount (2 ^ 55)).blockCount.toNat) ∧
    ¬ 2 ^ 55 ≤ (atBlockCount (2 ^ 55 - 1)).blockCount.toNat :=
  ⟨⟨⟨[], rfl⟩, rfl, rfl, by decide⟩, by decide⟩

theorem witness_HandshakeAcceptsAndPerforms :
    (∃ (p : InPorts) (s t : State), p.rst = false ∧ p.cmdValid = true ∧ cmdReady s = true ∧
      step (acceptPorts p s) = .next t) ∧
    (∃ p : InPorts, p.rst = false ∧ p.cmdValid = false) ∧
    (∃ s : State, cmdReady s = false) :=
  ⟨⟨⟨false, true, 0x100⟩, State.reset, State.reset, rfl, rfl, rfl, rfl⟩, ⟨⟨false, false, 0⟩, rfl, rfl⟩,
   ⟨stateWith [] false false [.reset], rfl⟩⟩

theorem witness_ResetGivesAFreshEngine :
    (∃ (s : State) (rest : List HostEvent), s.pending = .reset :: rest ∧ s.fault = true) ∧ (∃ p : InPorts, p.rst = true) :=
  ⟨⟨stateWith [0x61] true true [.reset, .command 0x100], [.command 0x100], rfl, rfl⟩, ⟨⟨true, true, 0x300⟩, rfl⟩⟩

theorem witness_ReservedWordRaisesIllegalCommand :
    ∃ (s : State) (cmd : CmdWord) (e : DecodeError) (rest : List HostEvent),
      s.pending = .command cmd :: rest ∧ decode cmd = .error e ∧ s.fault = false :=
  ⟨stateWith [] true false [.command 0x101], 0x101, .initDataNonzero, [], rfl, by decide, rfl⟩

theorem witness_SpentEngineFaultsOnUse : ∃ s : State, s.fault = false ∧ s.finalized = true :=
  ⟨stateWith [] true false [], rfl, rfl⟩

theorem witness_FaultPriority :
    (∃ (s t : State) (cmd : CmdWord) (rest : List HostEvent),
      s.pending = .command cmd :: rest ∧ step s = .next t ∧ s.fault = true) ∧
    (∃ (s t : State) (cmd : CmdWord) (rest : List HostEvent), s.pending = .command cmd :: rest ∧ step s = .next t ∧
      s.fault = false ∧ (∃ e, decode cmd = .error e)) ∧
    (∃ (s t : State) (cmd : CmdWord) (rest : List HostEvent), s.pending = .command cmd :: rest ∧ step s = .next t ∧
      s.fault = false ∧ decode cmd = .ok .finalize ∧ s.finalized = true) ∧
    (∃ (s t : State) (cmd : CmdWord) (rest : List HostEvent), s.pending = .command cmd :: rest ∧ step s = .next t ∧
      s.fault = false ∧ decode cmd = .ok .init ∧ s.finalized = true) ∧
    (∃ (s t : State) (cmd : CmdWord) (rest : List HostEvent), s.pending = .command cmd :: rest ∧ step s = .next t ∧
      s.fault = false ∧ (∃ i, decode cmd = .ok i) ∧ s.finalized = false) :=
  ⟨⟨stateWith [] true true [.command 0x000], _, 0x000, [], rfl, rfl, rfl⟩,
   ⟨stateWith [] true false [.command 0x000], _, 0x000, [], rfl, rfl, rfl, .reservedOp, by decide⟩,
   ⟨stateWith [] true false [.command 0x300], _, 0x300, [], rfl, rfl, rfl, by decide, rfl⟩,
   ⟨stateWith [] true false [.command 0x100], _, 0x100, [], rfl, rfl, rfl, by decide, rfl⟩,
   ⟨stateWith [] false false [.command 0x2FF], _, 0x2FF, [], rfl, rfl, rfl, ⟨.absorb 0xFF, by decide⟩, rfl⟩⟩

theorem witness_FaultEntryIsPrecise : ∃ s t : State, step s = .next t ∧ s.fault = false ∧ t.fault = true :=
  ⟨stateWith [] true false [.command 0x300], _, rfl, rfl, rfl⟩

theorem witness_FaultedEngineDropsEveryCommand :
    ∃ (s : State) (cmd : CmdWord) (rest : List HostEvent), s.pending = .command cmd :: rest ∧ s.fault = true ∧ rest = [] :=
  ⟨stateWith [] false true [.command 0x100], 0x100, [], rfl, rfl, rfl⟩

theorem witness_OnlyResetClearsAFault :
    (∃ s t : State, step s = .next t ∧ s.fault = true ∧ t.fault = true) ∧
    (∃ s t : State, step s = .next t ∧ s.fault = true ∧ t.fault = false) :=
  ⟨⟨stateWith [] false true [.command 0x100], _, rfl, rfl, rfl⟩, ⟨stateWith [] false true [.reset], _, rfl, rfl, rfl⟩⟩

/-- Each phase meets each kind of word of 10_state.md R36; a reset is met in phase FAULTED. -/
theorem witness_PhaseTransitions :
    (∀ flags ∈ [(false, false), (true, false), (false, true)], ∀ cmd ∈ [0x100, 0x200, 0x2FF, 0x300, 0x000, 0x3FF],
      (nextOf (step (stateWith [] flags.1 flags.2 [.command cmd]))).isSome = true) ∧
    phase (stateWith [] false false []) = .active ∧ phase (stateWith [] true false []) = .spent ∧
    phase (stateWith [] false true []) = .faulted ∧ (nextOf (step (stateWith [] true true [.reset]))).isSome = true := by
  decide +kernel

theorem witness_FinalizedIsSetAndClearedOnlyAsStated :
    (∃ s t : State, step s = .next t ∧ s.finalized = false) ∧ (∃ s t : State, step s = .next t ∧ s.finalized = true) :=
  ⟨⟨stateWith [] false false [.command 0x200], _, rfl, rfl⟩, ⟨stateWith [] true false [.command 0x100], _, rfl, rfl⟩⟩

theorem witness_OnlyCompressionInitAndResetWriteTheChain : ∃ s t : State, step s = .next t ∧ t.h ≠ s.h :=
  ⟨{ stateWith [] false false [.command 0x100] with h := Vector.replicate 8 0 }, _, rfl, by decide⟩

theorem witness_InitMakesAFreshEngine : (∃ s : State, s.fault = false ∧ s.finalized = true) ∧ (∃ s : State, s.fault = true) :=
  ⟨⟨stateWith [] true false [], rfl, rfl⟩, ⟨stateWith [] true true [], rfl⟩⟩

theorem witness_AbsorbWithRoomStoresTheByte :
    let s := stateWith (List.replicate 62 0xAA) false false []
    s.buffer.wf = true ∧ s.fault = false ∧ s.finalized = false ∧ s.bufferLen.toNat = 62 := by decide +kernel

theorem witness_AbsorbOfTheLastByteCompresses :
    let s := stateWith (List.replicate 63 0xAA) false false []
    s.buffer.wf = true ∧ s.fault = false ∧ s.finalized = false ∧ s.bufferLen = 63 := by decide +kernel

theorem witness_ChunkingInvariance : ∃ s : State, phase s = .active := ⟨State.reset, rfl⟩

theorem witness_RotateAndShiftBits : ∃ n i : Nat, 1 ≤ n ∧ n ≤ 32 ∧ i < 32 := ⟨32, 31, by decide⟩

theorem witness_ChooseAndMajorityBits : ∃ i : Nat, i < 32 := ⟨31, by decide⟩

theorem witness_SigmaBits : ∃ i : Nat, i < 32 := ⟨31, by decide⟩

theorem witness_BlockParsesBigEndian : ∃ j : Nat, j < 16 := ⟨15, by decide⟩

theorem witness_ScheduleRecurrence : (∃ j : Nat, j < 16) ∧ (∃ i : Nat, 16 ≤ i ∧ i < 64) := ⟨⟨15, by decide⟩, ⟨63, by decide⟩⟩

theorem witness_WindowHoldsTheScheduleWords : ∃ n k : Nat, n ≤ 64 ∧ k < 16 ∧ n + k < 64 := ⟨48, 15, by decide⟩

theorem witness_CompressIsSixtyFourRoundsAndFeedForward : ∃ i : Nat, i < 64 := ⟨63, by decide⟩

theorem witness_MessageLengthIsWiring : (atBlockCount (2 ^ 55 - 1)).blockCount.toNat < 2 ^ 55 ∧
    Absorbed [0x61] (stateWith [0x61] false false []) :=
  ⟨by decide, rfl, rfl, rfl, rfl, by decide +kernel⟩

theorem witness_PaddingCompletesOneOrTwoBlocks :
    (stateWith (List.replicate 55 0) false false []).bufferLen.toNat = 55 ∧
    (stateWith (List.replicate 56 0) false false []).bufferLen.toNat = 56 := by decide +kernel

theorem witness_FinalizeInOneBlock :
    let s := { stateWith (List.replicate 55 0xAA) false false [] with blockCount := 2 ^ 55 - 1 }
    s.buffer.wf = true ∧ s.fault = false ∧ s.finalized = false ∧ s.blockCount.toNat < 2 ^ 55 ∧ s.bufferLen.toNat = 55 := by
  decide +kernel

theorem witness_FinalizeInTwoBlocks :
    let s := { stateWith (List.replicate 56 0xAA) false false [] with blockCount := 2 ^ 55 - 1 }
    s.buffer.wf = true ∧ s.fault = false ∧ s.finalized = false ∧ s.blockCount.toNat < 2 ^ 55 ∧ 56 ≤ s.bufferLen.toNat := by
  decide +kernel

theorem witness_FinalizeOfATooLongMessageIsRefused :
    (atBlockCount (2 ^ 55)).fault = false ∧ (atBlockCount (2 ^ 55)).finalized = false := ⟨rfl, rfl⟩

theorem witness_DigestOutputIsTheChainBigEndian :
    digestValid (stateWith [] true false []) = true ∧ digestValid (stateWith [] true true []) = false := by decide

theorem witness_ValidDigestIsImmutable :
    (∃ s t : State, digestValid s = true ∧ step s = .next t ∧ digestValid t = true) ∧
    (∃ s t : State, digestValid s = true ∧ step s = .next t ∧ ∃ rest, s.pending = .command 0x100 :: rest) ∧
    (∃ s t : State, digestValid s = true ∧ step s = .next t ∧ ∃ rest, s.pending = .reset :: rest) :=
  ⟨⟨stateWith [] true false [], _, rfl, rfl, rfl⟩, ⟨stateWith [] true false [.command 0x100], _, rfl, rfl, [], rfl⟩,
   ⟨stateWith [] true false [.reset], _, rfl, rfl, [], rfl⟩⟩

/-- Two states that differ in a hidden byte: byte 63 of an empty buffer. -/
theorem witness_HiddenBytesAreUnobservable :
    let s := stateWith [] false false [.command 0x200]
    let t := { stateWith [] false false [.command 0x200] with buffer := [(63, 0xAA)] }
    SameButHidden s t ∧ s.buffer.wf = true ∧ t.buffer.wf = true ∧ s ≠ t ∧ ∃ s', step s = .next s' :=
  ⟨⟨rfl, rfl, rfl, rfl, rfl, rfl, rfl, fun _ h => absurd h (Nat.not_lt_zero _)⟩, rfl, rfl, by decide, _, rfl⟩

theorem witness_ControlDoesNotDependOnData :
    let s := stateWith [0x61] false false [.command 0x200]
    let t := stateWith [0xFF] false false [.command 0x2FF]
    SameControl s t ∧ s.pending = [.command (encode (.absorb 0x00))] ∧ t.pending = [.command (encode (.absorb 0xFF))] ∧
      ∃ s', step s = .next s' :=
  ⟨⟨rfl, rfl, rfl, rfl, rfl⟩, rfl, rfl, _, rfl⟩

theorem witness_EveryStepKeepsTheInvariant : ∃ s t : State, Inv s ∧ step s = .next t ∧ t.bufferLen = 2 :=
  ⟨stateWith [0x61] false false [.command 0x262], _,
    ⟨by decide, by decide +kernel, by decide +kernel, by decide, by decide⟩, rfl, rfl⟩

theorem witness_CreationStartsTheStream : (stateWith [0x61] true false []).fault = false := rfl

theorem witness_AbsorbExtendsTheStream : ∃ (m : List Byte) (s : State), Absorbed m s ∧ s.buffer.wf = true ∧ m.length + 1 < 2 ^ 70 :=
  ⟨[0x61], stateWith [0x61] false false [], ⟨rfl, rfl, rfl, rfl, by decide +kernel⟩, by decide, by decide⟩

theorem witness_FinalizePresentsTheMessageDigest : ∃ (m : List Byte) (s : State), Absorbed m s ∧ s.buffer.wf = true ∧ m.length < 2 ^ 61 :=
  ⟨[0x61], stateWith [0x61] false false [], ⟨rfl, rfl, rfl, rfl, by decide +kernel⟩, by decide, by decide⟩

theorem witness_HashPresentsTheMessageDigest : ∃ (m : List Byte) (s : State), s.fault = false ∧ m.length < 2 ^ 61 :=
  ⟨[0x61, 0x62, 0x63], stateWith [0xFF] true false [], rfl, by decide⟩

end Sys2Proof.Tests
end

section
/-! SUPPORT. The iterative core against the full schedule: its window is the tail of the expansion so far, so each of its rounds
reads the schedule's word (42_schedule.md R132). -/

namespace Sys2Proof.Machine

/-- The schedule and a partial expansion agree wherever both have a word. -/
theorem schedule_getElem_eq_expandTo (B : Block) {n i : Nat} (hi : i < 64) (hn : i < 16 + n) :
    (schedule B)[i] = (expandTo (parse B) n)[i] := by
  obtain h | h := Nat.le_total n 48
  · exact expandTo_getElem (parse B) h i hn
  · exact (expandTo_getElem (parse B) h i hi).symm

/-- The window after `n` clocks is the last sixteen words of the expansion by `n` words. -/
theorem coreAfter_window_eq_expandTo (S : Chain) (B : Block) (n : Nat) (hn : n ≤ 64) (k : Nat) (hk : k < 16) :
    (coreAfter S B n hn).window[k] = (expandTo (parse B) n)[n + k] := by
  induction n generalizing k with
  | zero => simp only [Nat.zero_add, coreAfter, expandTo]
  | succ n ih =>
    have ih := ih (by omega)
    simp only [coreAfter, coreStep]
    obtain hlt | rfl : k < 15 ∨ k = 15 := by omega
    · -- a word that moved down one place was in the window before
      have hold := expandTo_getElem (parse B) (Nat.le_succ n) (n + (k + 1)) (by omega)
      rw [slideWindow_getElem _ k hlt, ih, ← hold]
      simp only [Nat.add_assoc, Nat.add_comm 1 k]
    · -- the word that came in is the newest of the expansion
      have hlast := expandTo_last (parse B) n
      simp only [slideWindow_last, ih, Nat.add_zero, ← hlast]
      congr 1
      omega

/-- The window holds the schedule's words, as far as the schedule goes. -/
theorem coreAfter_window_eq_schedule (S : Chain) (B : Block) (n k : Nat) (hn : n ≤ 64) (hk : k < 16) (h : n + k < 64) :
    (coreAfter S B n hn).window[k] = (schedule B)[n + k] := by
  rw [coreAfter_window_eq_expandTo S B n hn k hk, schedule_getElem_eq_expandTo B (n := n) h (by omega)]

/-- The core's working variables go through the rounds of the full schedule. -/
theorem coreAfter_vars (S : Chain) (B : Block) (n : Nat) (hn : n ≤ 64) :
    (coreAfter S B n hn).vars = afterRounds (schedule B) (loadVars S) n hn := by
  induction n with
  | zero => rfl
  | succ n ih =>
    have hfront := coreAfter_window_eq_schedule S B n 0 (by omega) (by omega) hn
    simp only [coreAfter, coreStep, afterRounds, ih, hfront, Nat.add_zero]

/-- `compress` in terms of its rounds: the one place that opens it. -/
theorem compress_eq (S : Chain) (B : Block) :
    compress S B = feedForward S (afterRounds (schedule B) (loadVars S) 64 (Nat.le_refl 64)) := by
  unfold compress
  rfl

/-- Settles O34: after 64 clocks the core holds the working variables of 64 rounds, and the feed-forward is the same. -/
theorem iterativeCoreRefinesCompress : Obligations.IterativeCoreRefinesCompress := by
  intro S B
  rw [compressIterative, coreAfter_vars, compress_eq]

end Sys2Proof.Machine
end

section
/-! SUPPORT. Words and commands: a command's own word decodes to it, and no other word does (30_encoding.md R71, R74). -/

namespace Sys2Proof

@[simp] theorem decode_encode (i : Instr) : decode (encode i) = .ok i := by
  cases i with
  | init => rfl
  | absorb v => exact decode_append 0b10#2 v
  | finalize => rfl

theorem eq_encode_of_decode {cmd : CmdWord} {i : Instr} (h : decode cmd = .ok i) : cmd = encode i := by
  rw [← fields_append cmd] at h ⊢
  rw [decode_append] at h
  split_ifs at h with hinit hzero habsorb hfinalize hzero <;> cases h
  · rw [hinit, hzero]
    rfl
  · rw [habsorb]
    rfl
  · rw [hfinalize, hzero]
    rfl

end Sys2Proof
end

section
/-! SUPPORT. The effect of a step, one case for each thing a step can do, as an equivalence: later proofs take a step apart by
`cases`, and build one by naming its case. -/

namespace Sys2Proof.Machine

/-- The complete list of what a step does to a state: the cells of 10_state.md R36's table, and the idle step. Where the engine
gives a command no meaning (44_finalize.md R169) there is no case. -/
inductive StepEffect (s : State) : State → Prop where
  /-- Nothing was delivered. -/
  | idle (hp : s.pending = []) : StepEffect s s
  /-- 70_reset_and_hazards.md R200. -/
  | reset {rest : List HostEvent} (hp : s.pending = .reset :: rest) :
      StepEffect s (resetEngine { s with pending := rest })
  /-- 60_exceptions.md R187. -/
  | dropped {cmd : CmdWord} {rest : List HostEvent} (hp : s.pending = .command cmd :: rest) (hf : s.fault = true) :
      StepEffect s { s with pending := rest }
  /-- 40_init_absorb.md R90. -/
  | init {cmd : CmdWord} {rest : List HostEvent} (hp : s.pending = .command cmd :: rest) (hd : decode cmd = .ok .init)
      (hf : s.fault = false) : StepEffect s (freshEngine { s with pending := rest })
  /-- 40_init_absorb.md R92. -/
  | absorb {cmd : CmdWord} {rest : List HostEvent} {v : Byte} (hp : s.pending = .command cmd :: rest)
      (hd : decode cmd = .ok (.absorb v)) (hf : s.fault = false) (hz : s.finalized = false) :
      StepEffect s (absorbByte v { s with pending := rest })
  /-- 44_finalize.md R171. -/
  | finalize {cmd : CmdWord} {rest : List HostEvent} (hp : s.pending = .command cmd :: rest)
      (hd : decode cmd = .ok .finalize) (hf : s.fault = false) (hz : s.finalized = false)
      (hb : s.blockCount.toNat < Config.maxBlocks) : StepEffect s (finalizeMessage { s with pending := rest })
  /-- 60_exceptions.md R182. -/
  | useAfterFinalize {cmd : CmdWord} {rest : List HostEvent} (hp : s.pending = .command cmd :: rest)
      (hd : (∃ v, decode cmd = .ok (.absorb v)) ∨ decode cmd = .ok .finalize) (hf : s.fault = false)
      (hz : s.finalized = true) : StepEffect s (raise .useAfterFinalize { s with pending := rest })
  /-- 60_exceptions.md R183. -/
  | illegalCommand {cmd : CmdWord} {rest : List HostEvent} {e : DecodeError} (hp : s.pending = .command cmd :: rest)
      (hd : decode cmd = .error e) (hf : s.fault = false) :
      StepEffect s (raise .illegalCommand { s with pending := rest })

theorem step_decoded {s : State} {cmd : CmdWord} {i : Instr} {rest : List HostEvent}
    (hp : s.pending = .command cmd :: rest) (hd : decode cmd = .ok i) : step s = exec i { s with pending := rest } :=
  (step_command hp).trans (perform_ok hd _)

theorem step_reserved {s : State} {cmd : CmdWord} {e : DecodeError} {rest : List HostEvent}
    (hp : s.pending = .command cmd :: rest) (hd : decode cmd = .error e) : step s = execReserved { s with pending := rest } :=
  (step_command hp).trans (perform_error hd _)

theorem step_of_fault {s : State} {cmd : CmdWord} {rest : List HostEvent} (hp : s.pending = .command cmd :: rest)
    (hf : s.fault = true) : step s = .next { s with pending := rest } := by
  cases hd : decode cmd with
  | ok i => exact (step_decoded hp hd).trans (exec_of_fault (s := { s with pending := rest }) hf i)
  | error e => exact (step_reserved hp hd).trans (execReserved_of_fault hf)

theorem StepEffect.step_eq {s t : State} (h : StepEffect s t) : step s = .next t := by
  cases h with
  | idle hp => exact step_idle hp
  | reset hp => exact step_reset hp
  | dropped hp hf => exact step_of_fault hp hf
  | init hp hd hf => exact (step_decoded hp hd).trans (execInit_of_ok hf)
  | @absorb _ rest v hp hd hf hz =>
    exact (step_decoded hp hd).trans (execAbsorb_of_active (s := { s with pending := rest }) hf hz v)
  | finalize hp hd hf hz hb => exact (step_decoded hp hd).trans (execFinalize_of_active hf hz hb)
  | @useAfterFinalize _ rest hp hd hf hz =>
    obtain ⟨v, hd⟩ | hd := hd
    · exact (step_decoded hp hd).trans (execAbsorb_of_spent (s := { s with pending := rest }) hf hz v)
    · exact (step_decoded hp hd).trans (execFinalize_of_spent hf hz)
  | illegalCommand hp hd hf => exact (step_reserved hp hd).trans (execReserved_of_ok hf)

theorem stepEffect_of_exec {s t : State} {cmd : CmdWord} {i : Instr} {rest : List HostEvent}
    (hp : s.pending = .command cmd :: rest) (hd : decode cmd = .ok i) (h : exec i { s with pending := rest } = .next t) :
    StepEffect s t := by
  cases i with
  | init =>
    rw [exec_init] at h
    obtain ⟨hf, he⟩ | ⟨hf, he⟩ := execInit_cases { s with pending := rest } <;> cases he.symm.trans h
    · exact .dropped hp hf
    · exact .init hp hd hf
  | absorb v =>
    rw [exec_absorb] at h
    obtain ⟨hf, he⟩ | ⟨hf, hz, he⟩ | ⟨hf, hz, he⟩ := execAbsorb_cases v { s with pending := rest } <;>
      cases he.symm.trans h
    · exact .dropped hp hf
    · exact .useAfterFinalize hp (.inl ⟨v, hd⟩) hf hz
    · exact .absorb hp hd hf hz
  | finalize =>
    rw [exec_finalize] at h
    obtain ⟨hf, he⟩ | ⟨hf, hz, he⟩ | ⟨hf, hz, hb, he⟩ | ⟨-, -, -, he⟩ := execFinalize_cases { s with pending := rest } <;>
      cases he.symm.trans h
    · exact .dropped hp hf
    · exact .useAfterFinalize hp (.inr hd) hf hz
    · exact .finalize hp hd hf hz hb

/-- A step completes in `t` exactly when one of the listed effects leads there. -/
theorem step_eq_next_iff {s t : State} : step s = .next t ↔ StepEffect s t := by
  refine ⟨fun h => ?_, StepEffect.step_eq⟩
  obtain ⟨hp, he⟩ | ⟨rest, hp, he⟩ | ⟨cmd, i, rest, hp, hd, he⟩ | ⟨cmd, e, rest, hp, hd, he⟩ := step_cases s
  · cases he.symm.trans h
    exact .idle hp
  · cases he.symm.trans h
    exact .reset hp
  · exact stepEffect_of_exec hp hd (he.symm.trans h)
  · obtain ⟨hf, hx⟩ | ⟨hf, hx⟩ := execReserved_cases { s with pending := rest } <;> cases (he.trans hx).symm.trans h
    · exact .dropped hp hf
    · exact .illegalCommand hp hd hf

/-- A step has one result: the effect that applies names it. -/
theorem StepEffect.eq_of_step {s t u : State} (he : StepEffect s u) (h : step s = .next t) : t = u :=
  Host.Outcome.next.inj (h.symm.trans he.step_eq)

/-- `FINALIZE` on an ACTIVE engine, when it completes at all. -/
theorem eq_finalizeMessage_of_step {s t : State} {cmd : CmdWord} {rest : List HostEvent}
    (hp : s.pending = .command cmd :: rest) (hd : decode cmd = .ok .finalize) (hf : s.fault = false)
    (hz : s.finalized = false) (h : step s = .next t) : t = finalizeMessage { s with pending := rest } := by
  obtain hb | hb := Nat.lt_or_ge s.blockCount.toNat Config.maxBlocks
  · exact (StepEffect.finalize hp hd hf hz hb).eq_of_step h
  · have hrefused := (step_decoded hp hd).trans (execFinalize_of_tooLong hf hz hb)
    cases hrefused.symm.trans h

end Sys2Proof.Machine
end

section
/-! SUPPORT. Padding ends at a block boundary: `buffer_len` counts bytes modulo 64, and the padding's length is chosen so that
it comes back to 0 (44_finalize.md R162, R165). -/

namespace Sys2Proof.Machine

/-- `buffer_len` counts modulo 64, also where the block is complete (10_state.md R23). -/
@[simp] theorem absorbByte_bufferLen (v : Byte) (s : State) : (absorbByte v s).bufferLen = s.bufferLen + 1 := by
  obtain ⟨-, h⟩ | ⟨hn, h⟩ := absorbByte_cases v s <;> rw [h]
  exact BitVec.eq_of_toNat_eq (by simp [hn])

theorem absorbBytes_bufferLen_toNat (vs : List Byte) (s : State) :
    (absorbBytes vs s).bufferLen.toNat = (s.bufferLen.toNat + vs.length) % 64 := by
  induction vs generalizing s with
  | nil => simp [Nat.mod_eq_of_lt s.bufferLen.isLt]
  | cons v vs ih =>
    rw [absorbBytes_cons, ih, absorbByte_bufferLen, BitVec.toNat_add, List.length_cons]
    simp
    omega

theorem paddingLen_totalBits (s : State) : paddingLen (totalBits s) = 8 * ((119 - s.bufferLen.toNat) % 64) := by
  have := s.bufferLen.isLt
  unfold paddingLen totalBits
  omega

theorem padding_length (bits : Nat) : (padding bits).length = paddingLen bits / 8 + 9 := by
  simp [padding]

theorem bufferLen_add_padding_length_mod (s : State) :
    (s.bufferLen.toNat + (padding (totalBits s)).length) % 64 = 0 := by
  have := s.bufferLen.isLt
  rw [padding_length, paddingLen_totalBits]
  omega

theorem absorbBytes_padding_bufferLen (s : State) : (absorbBytes (padding (totalBits s)) s).bufferLen = 0 := by
  apply BitVec.eq_of_toNat_eq
  rw [absorbBytes_bufferLen_toNat, bufferLen_add_padding_length_mod]
  rfl

end Sys2Proof.Machine
end

section
/-! SUPPORT. The invariant of 10_state.md R32: what each operation of a step needs to keep it. -/

namespace Sys2Proof.Machine

/-- Settles O46: the base case of the invariant. -/
theorem resetStateMeetsTheInvariant : Obligations.ResetStateMeetsTheInvariant where
  bufferWf := rfl
  tailZero _ _ := rfl
  spentEmpty h := by cases h
  causeIffFault := by decide
  causeLegal := by decide

namespace Inv
variable {s : State}

/-- The invariant says nothing of the host's stream. -/
theorem withPending (h : Inv s) (p : List HostEvent) : Inv { s with pending := p } :=
  ⟨h.bufferWf, h.tailZero, h.spentEmpty, h.causeIffFault, h.causeLegal⟩

theorem resetEngine (s : State) : Inv (resetEngine s) :=
  withPending resetStateMeetsTheInvariant s.pending

theorem freshEngine (h : Inv s) : Inv (freshEngine s) where
  bufferWf := rfl
  tailZero _ _ := rfl
  spentEmpty hz := by cases hz
  causeIffFault := h.causeIffFault
  causeLegal := h.causeLegal

/-- A fault's code is neither 0 nor 3 (60_exceptions.md R181). -/
theorem raise (h : Inv s) (c : FaultCause) : Inv (raise c s) where
  bufferWf := h.bufferWf
  tailZero := h.tailZero
  spentEmpty := h.spentEmpty
  causeIffFault := iff_of_false (by simp) (faultCode_ne c).1
  causeLegal := (faultCode_ne c).2

/-- The byte stored is the one that stops being hidden; a complete block leaves the buffer cleared. -/
theorem absorbByte (h : Inv s) (hz : s.finalized = false) (v : Byte) : Inv (absorbByte v s) where
  bufferWf := absorbByte_wf h.bufferWf v
  tailZero a ha := by
    obtain ⟨hn, e⟩ | ⟨-, e⟩ := absorbByte_cases v s <;> rw [e] at ha ⊢
    · rw [toNat_succ_len hn] at ha
      rw [memRead1_memWrite1 h.bufferWf, if_neg (by rintro rfl; omega)]
      exact h.tailZero a (by omega)
    · rfl
  spentEmpty hz' := by simp [hz] at hz'
  causeIffFault := by simpa using h.causeIffFault
  causeLegal := by simpa using h.causeLegal

theorem absorbBytes (h : Inv s) (hz : s.finalized = false) (vs : List Byte) : Inv (absorbBytes vs s) := by
  induction vs generalizing s with
  | nil => exact h
  | cons v vs ih => exact ih (h.absorbByte hz v) ((absorbByte_finalized v s).trans hz)

/-- An engine at a block boundary holds no bytes, so it may be marked spent. -/
theorem withFinalized (h : Inv s) (hn : s.bufferLen = 0) : Inv { s with finalized := true } where
  bufferWf := h.bufferWf
  tailZero := h.tailZero
  spentEmpty _ := ⟨hn, fun a => h.tailZero a (by simp [hn])⟩
  causeIffFault := h.causeIffFault
  causeLegal := h.causeLegal

theorem finalizeMessage (h : Inv s) (hz : s.finalized = false) : Inv (finalizeMessage s) :=
  (h.absorbBytes hz _).withFinalized (absorbBytes_padding_bufferLen s)

end Inv

/-- Settles O47: each effect of a step is an operation that keeps the invariant. -/
theorem everyStepKeepsTheInvariant : Obligations.EveryStepKeepsTheInvariant := by
  intro s t hs h
  cases step_eq_next_iff.mp h with
  | idle => exact hs
  | reset => exact .resetEngine _
  | dropped => exact hs.withPending _
  | init => exact (hs.withPending _).freshEngine
  | @absorb _ rest v _ _ _ hz => exact (hs.withPending rest).absorbByte hz v
  | finalize _ _ _ hz => exact (hs.withPending _).finalizeMessage hz
  | useAfterFinalize => exact (hs.withPending _).raise _
  | illegalCommand => exact (hs.withPending _).raise _

end Sys2Proof.Machine
end

section
/-! SUPPORT. The phases and their transitions, and what writes `finalized` and `H` (10_state.md R21, R25, R36). -/

namespace Sys2Proof.Machine

section Phase
variable {s : State}

theorem phase_eq_active_iff : phase s = .active ↔ s.fault = false ∧ s.finalized = false := by
  cases hf : s.fault <;> cases hz : s.finalized <;> simp [phase, hf, hz]

theorem phase_eq_spent_iff : phase s = .spent ↔ s.fault = false ∧ s.finalized = true := by
  cases hf : s.fault <;> cases hz : s.finalized <;> simp [phase, hf, hz]

theorem phase_eq_faulted_iff : phase s = .faulted ↔ s.fault = true := by
  cases hf : s.fault <;> cases hz : s.finalized <;> simp [phase, hf, hz]

theorem digestValid_iff : digestValid s = true ↔ s.finalized = true ∧ s.fault = false := by
  simp [digestValid]

end Phase

/-- A fresh engine is the reset one, with `fault_cause` kept. -/
theorem freshEngine_eq_reset {s : State} (hf : s.fault = false) :
    freshEngine s = { State.reset with faultCause := s.faultCause, pending := s.pending } := by
  simp [freshEngine, State.reset, Memory.clear, hf]

/-- Settles O20: each cell of the table is one effect of a step. -/
theorem phaseTransitions : Obligations.PhaseTransitions := by
  refine ⟨fun s => ⟨phase_eq_active_iff, phase_eq_spent_iff, phase_eq_faulted_iff, fun h => ?_⟩,
    fun s t cmd rest hp h => ?_, fun s t rest hp h => ?_⟩
  · exact digestValid_iff.mpr (phase_eq_spent_iff.mp h).symm
  · have hinit (hf : s.fault = false) (hd : decode cmd = .ok .init) :
        (t.fault = false ∧ t.finalized = false) ∧ t = { State.reset with faultCause := s.faultCause, pending := rest } := by
      rw [(StepEffect.init hp hd hf).eq_of_step h]
      exact ⟨⟨hf, rfl⟩, freshEngine_eq_reset hf⟩
    have huse (hf : s.fault = false) (hz : s.finalized = true)
        (hd : (∃ v, decode cmd = .ok (.absorb v)) ∨ decode cmd = .ok .finalize) : t.fault = true ∧ t.faultCause = 1 := by
      rw [(StepEffect.useAfterFinalize hp hd hf hz).eq_of_step h]
      exact ⟨rfl, rfl⟩
    have hillegal (hf : s.fault = false) (hd : ∃ e, decode cmd = .error e) : t.fault = true ∧ t.faultCause = 2 := by
      obtain ⟨e, hd⟩ := hd
      rw [(StepEffect.illegalCommand hp hd hf).eq_of_step h]
      exact ⟨rfl, rfl⟩
    simp only [phase_eq_active_iff, phase_eq_spent_iff, phase_eq_faulted_iff]
    refine ⟨fun hf => ?_, fun ⟨hf, _⟩ => hinit hf, fun ⟨hf, hz⟩ ⟨v, hd⟩ => ?_, fun ⟨hf, hz⟩ hd => ?_,
      fun ⟨hf, _⟩ => hillegal hf, fun ⟨hf, _⟩ => hinit hf, fun ⟨hf, hz⟩ hd => huse hf hz (.inl hd),
      fun ⟨hf, hz⟩ hd => huse hf hz (.inr hd), fun ⟨hf, _⟩ => hillegal hf⟩
    · rw [(StepEffect.dropped hp hf).eq_of_step h, hf]
    · rw [(StepEffect.absorb hp hd hf hz).eq_of_step h]
      simp [hf, hz]
    · rw [eq_finalizeMessage_of_step hp hd hf hz h]
      simp [hf]
  · rw [(StepEffect.reset hp).eq_of_step h]
    exact ⟨rfl, rfl⟩

/-- The oldest event is a given command's word. -/
theorem pending_eq_encode {s : State} {cmd : CmdWord} {i : Instr} {rest : List HostEvent}
    (hp : s.pending = .command cmd :: rest) (hd : decode cmd = .ok i) : s.pending = .command (encode i) :: rest := by
  rw [hp, eq_encode_of_decode hd]

/-- Settles O21: of the effects, only that of `FINALIZE` sets the mark, and only a fresh engine lacks it again. -/
theorem finalizedIsSetAndClearedOnlyAsStated : Obligations.FinalizedIsSetAndClearedOnlyAsStated := by
  refine ⟨rfl, fun s t h => ⟨fun hz => ⟨fun ht => ?_, fun ⟨hf, rest, hp⟩ => ?_⟩,
    fun hz => ⟨fun ht => ?_, fun hor => ?_⟩⟩⟩
  · cases step_eq_next_iff.mp h with
    | finalize hp hd hf => exact ⟨hf, _, pending_eq_encode hp hd⟩
    | idle | dropped | useAfterFinalize | illegalCommand | reset | init | absorb => simp [hz] at ht
  · rw [eq_finalizeMessage_of_step hp (decode_encode .finalize) hf hz h, finalizeMessage_finalized]
  · cases step_eq_next_iff.mp h with
    | reset hp => exact .inr ⟨_, hp⟩
    | init hp hd hf => exact .inl ⟨hf, _, pending_eq_encode hp hd⟩
    | idle | dropped | useAfterFinalize | illegalCommand | absorb | finalize => simp [hz] at ht
  · obtain ⟨hf, rest, hp⟩ | ⟨rest, hp⟩ := hor
    · rw [(StepEffect.init hp (decode_encode .init) hf).eq_of_step h, freshEngine_finalized]
    · rw [(StepEffect.reset hp).eq_of_step h, resetEngine_finalized]

/-- Storing a byte leaves `H` alone unless the byte completes a block. -/
theorem absorbByte_h_of_ne_full {s : State} (hn : s.bufferLen ≠ 63) (v : Byte) : (absorbByte v s).h = s.h := by
  obtain ⟨-, e⟩ | ⟨hfull, -⟩ := absorbByte_cases v s
  · rw [e]
  · exact absurd (BitVec.eq_of_toNat_eq hfull) hn

/-- Settles O22: by the effects of a step. -/
theorem onlyCompressionInitAndResetWriteTheChain : Obligations.OnlyCompressionInitAndResetWriteTheChain := by
  intro s t h hne
  cases step_eq_next_iff.mp h with
  | idle | dropped | useAfterFinalize | illegalCommand => exact absurd rfl hne
  | reset hp => exact .inl ⟨_, hp⟩
  | init hp hd hf => exact .inr (.inl ⟨hf, _, pending_eq_encode hp hd⟩)
  | @absorb _ rest v hp hd hf hz =>
    have hfull : s.bufferLen = 63 :=
      by_contra fun hn => hne (absorbByte_h_of_ne_full (s := { s with pending := rest }) hn v)
    exact .inr (.inr (.inl ⟨hf, hz, hfull, _, _, pending_eq_encode hp hd⟩))
  | finalize hp hd hf hz => exact .inr (.inr (.inr ⟨hf, hz, _, pending_eq_encode hp hd⟩))

end Sys2Proof.Machine
end

section
/-! SUPPORT. The digest outputs: the bus carries the digest's bytes, and a valid digest stays until `INIT` or reset (10_state.md
R33, R34, 20_memory.md R53). -/

namespace Sys2Proof.Machine

/-- Word `j` of the accumulator on the bus, `H[0]` in the highest place. -/
theorem digestWide_getLsbD (h : Chain) (j b : Nat) (hj : j < 8) (hb : b < 32) :
    (digestWide h).getLsbD (32 * (7 - j) + b) = (h[j]).getLsbD b := by
  unfold digestWide
  simp only [BitVec.getLsbD_append]
  interval_cases j <;> grind

theorem digestWide_byte (h : Chain) (k : Nat) (hk : k < 32) :
    (digestWide h).extractLsb' (248 - 8 * k) 8 = (digestBytes h)[k] := by
  refine BitVec.eq_of_getLsbD_eq fun i hi => ?_
  have hplace : 248 - 8 * k + i = 32 * (7 - k / 4) + (24 - 8 * (k % 4) + i) := by omega
  rw [digestBytes_getElem, BitVec.getLsbD_extractLsb', BitVec.getLsbD_extractLsb', hplace,
    digestWide_getLsbD h (k / 4) _ (by omega) (by omega)]

theorem digestBytes_word (h : Chain) (j : Nat) (hj : j < 8) (r : Nat) (hr : r < 4) :
    (digestBytes h)[4 * j + r] = (h[j]).extractLsb' (24 - 8 * r) 8 := by
  rw [digestBytes_getElem]
  simp only [show (4 * j + r) / 4 = j by omega, show (4 * j + r) % 4 = r by omega]

theorem digestOut_of_valid {s : State} (h : digestValid s = true) : digestOut s = some (digestBytes s.h) :=
  if_pos h

theorem digestBitsOut_of_valid {s : State} (h : digestValid s = true) : digestBitsOut s = some (digestWide s.h) :=
  if_pos h

/-- Settles O42: byte by byte, and the bus by `digestWide_byte`. -/
theorem digestOutputIsTheChainBigEndian : Obligations.DigestOutputIsTheChainBigEndian := by
  refine fun s => ⟨digestValid_iff, fun hv => ?_, fun hv => ?_⟩
  · refine ⟨digestBytes s.h, digestWide s.h, digestOut_of_valid hv, digestBitsOut_of_valid hv, fun j hj => ?_,
      fun k hk => (digestWide_byte s.h k hk).symm⟩
    have hword := digestBytes_word s.h j hj
    exact ⟨hword 0 (by omega), hword 1 (by omega), hword 2 (by omega), hword 3 (by omega)⟩
  · simp [digestOut, digestBitsOut, hv]

/-- What a step can do while a digest is valid: nothing, or end its validity; only reset and `INIT` touch `H`. -/
theorem step_of_digestValid {s t : State} (hv : digestValid s = true) (h : step s = .next t) :
    (s.pending = [] ∧ t = s) ∨
    (((∃ rest, s.pending = .reset :: rest) ∨ ∃ rest, s.pending = .command 0x100 :: rest) ∧ digestValid t = false) ∨
    (t.h = s.h ∧ digestValid t = false) := by
  obtain ⟨hz, hf⟩ := digestValid_iff.mp hv
  cases step_eq_next_iff.mp h with
  | idle hp => exact .inl ⟨hp, rfl⟩
  | reset hp => exact .inr (.inl ⟨.inl ⟨_, hp⟩, rfl⟩)
  | init hp hd => exact .inr (.inl ⟨.inr ⟨_, pending_eq_encode hp hd⟩, rfl⟩)
  | useAfterFinalize | illegalCommand => exact .inr (.inr ⟨rfl, by simp [digestValid]⟩)
  | dropped _ hf' => cases hf.symm.trans hf'
  | absorb _ _ _ hz' => cases hz.symm.trans hz'
  | finalize _ _ _ hz' => cases hz.symm.trans hz'

/-- Settles O43: in each of the three cases of a step. -/
theorem validDigestIsImmutable : Obligations.ValidDigestIsImmutable := by
  intro s t hv h
  obtain ⟨hp, rfl⟩ | ⟨hor, hinv⟩ | ⟨hh, hinv⟩ := step_of_digestValid hv h
  · exact ⟨.inl rfl, fun _ => rfl, by simp [hp], fun _ => rfl⟩
  · exact ⟨.inr hinv, by simp [hinv], fun _ => hinv, fun hn => absurd hor hn⟩
  · exact ⟨.inl hh, by simp [hinv], fun _ => hinv, fun _ => hh⟩

end Sys2Proof.Machine
end

section
/-! SUPPORT. Noninterference of the hidden bytes: every operation of a step takes two states that differ only at or above
`buffer_len` to two such states (10_state.md R35 point 2). -/

namespace Sys2Proof.Machine

/-- A complete block holds no hidden byte: with the last byte stored, the blocks are equal. -/
theorem block_memWrite1_congr {m m' : Memory} (hm : m.wf = true) (hm' : m'.wf = true) {n : BitVec 6} (hn : n.toNat = 63)
    (hv : ∀ a : BitVec 6, a.toNat < n.toNat → memRead1 m a = memRead1 m' a) (v : Byte) :
    (memWrite1 m n v).block = (memWrite1 m' n v).block := by
  refine Vector.ext fun i hi => ?_
  rw [Memory.block_getElem, Memory.block_getElem, memWrite1, memWrite1, Memory.readAt_writeAt hm, Memory.readAt_writeAt hm']
  split
  · rfl
  · have := hv (BitVec.ofNat 6 i) (by simp; omega)
    simpa [memRead1, Nat.mod_eq_of_lt hi] using this

namespace SameButHidden
variable {s t : State}

theorem withPending (h : SameButHidden s t) (p : List HostEvent) :
    SameButHidden { s with pending := p } { t with pending := p } :=
  { h with pending := rfl }

theorem freshEngine (h : SameButHidden s t) : SameButHidden (freshEngine s) (freshEngine t) where
  h := rfl
  bufferLen := rfl
  blockCount := rfl
  finalized := rfl
  fault := h.fault
  faultCause := h.faultCause
  pending := h.pending
  validBytes _ _ := rfl

theorem resetEngine (h : SameButHidden s t) : SameButHidden (resetEngine s) (resetEngine t) :=
  { h.freshEngine with fault := rfl, faultCause := rfl }

theorem raise (h : SameButHidden s t) (c : FaultCause) : SameButHidden (raise c s) (raise c t) :=
  { h with fault := rfl, faultCause := rfl }

theorem withFinalized (h : SameButHidden s t) : SameButHidden { s with finalized := true } { t with finalized := true } :=
  { h with finalized := rfl }

/-- The byte stored is the only one that stops being hidden, and it is the same in both. -/
theorem absorbByte (h : SameButHidden s t) (hs : s.buffer.wf = true) (ht : t.buffer.wf = true) (v : Byte) :
    SameButHidden (absorbByte v s) (absorbByte v t) := by
  obtain ⟨hn, e⟩ | ⟨hn, e⟩ := absorbByte_cases v s
  · rw [e, absorbByte_partial (h.bufferLen ▸ hn)]
    refine { h with bufferLen := by simp only [h.bufferLen], validBytes := fun a ha => ?_ }
    simp only [toNat_succ_len hn] at ha
    simp only [memRead1_memWrite1 hs, memRead1_memWrite1 ht, ← h.bufferLen]
    split
    · rfl
    · next hne => exact h.validBytes a (by have := mt BitVec.eq_of_toNat_eq hne; omega)
  · rw [e, absorbByte_full (h.bufferLen ▸ hn)]
    have hblock := block_memWrite1_congr hs ht hn h.validBytes v
    exact { h with
      h := by simp only [h.h, ← h.bufferLen, hblock]
      bufferLen := rfl
      blockCount := by simp only [h.blockCount]
      validBytes := fun _ _ => rfl }

theorem absorbBytes (h : SameButHidden s t) (hs : s.buffer.wf = true) (ht : t.buffer.wf = true) (vs : List Byte) :
    SameButHidden (absorbBytes vs s) (absorbBytes vs t) := by
  induction vs generalizing s t with
  | nil => exact h
  | cons v vs ih => exact ih (h.absorbByte hs ht v) (absorbByte_wf hs v) (absorbByte_wf ht v)

/-- Both states pad for the same message length. -/
theorem finalizeMessage (h : SameButHidden s t) (hs : s.buffer.wf = true) (ht : t.buffer.wf = true) :
    SameButHidden (finalizeMessage s) (finalizeMessage t) := by
  have hlen : totalBits t = totalBits s := by rw [totalBits, totalBits, h.blockCount, h.bufferLen]
  unfold Machine.finalizeMessage
  rw [hlen]
  exact (h.absorbBytes hs ht _).withFinalized

theorem digestValid_eq (h : SameButHidden s t) : digestValid s = digestValid t := by
  rw [digestValid, digestValid, h.finalized, h.fault]

theorem digestBitsOut_eq (h : SameButHidden s t) : digestBitsOut s = digestBitsOut t := by
  rw [digestBitsOut, digestBitsOut, h.digestValid_eq, h.h]

/-- No output shows a byte of the buffer (10_state.md R33). -/
theorem outPorts_eq (h : SameButHidden s t) : outPorts s = outPorts t := by
  simp only [outPorts, cmdReady, h.digestValid_eq, h.digestBitsOut_eq, h.fault, h.faultCause, h.pending]

/-- What one state's step does, the other's does too. -/
theorem step {s' : State} (h : SameButHidden s t) (hs : s.buffer.wf = true) (ht : t.buffer.wf = true)
    (he : StepEffect s s') : ∃ t', StepEffect t t' ∧ SameButHidden s' t' := by
  cases he with
  | idle hp => exact ⟨t, .idle (h.pending ▸ hp), h⟩
  | reset hp => exact ⟨_, .reset (h.pending ▸ hp), (h.withPending _).resetEngine⟩
  | dropped hp hf => exact ⟨_, .dropped (h.pending ▸ hp) (h.fault ▸ hf), h.withPending _⟩
  | init hp hd hf => exact ⟨_, .init (h.pending ▸ hp) hd (h.fault ▸ hf), (h.withPending _).freshEngine⟩
  | @absorb _ rest v hp hd hf hz =>
    exact ⟨_, .absorb (h.pending ▸ hp) hd (h.fault ▸ hf) (h.finalized ▸ hz), (h.withPending rest).absorbByte hs ht v⟩
  | finalize hp hd hf hz hb =>
    exact ⟨_, .finalize (h.pending ▸ hp) hd (h.fault ▸ hf) (h.finalized ▸ hz) (h.blockCount ▸ hb),
      (h.withPending _).finalizeMessage hs ht⟩
  | useAfterFinalize hp hd hf hz =>
    exact ⟨_, .useAfterFinalize (h.pending ▸ hp) hd (h.fault ▸ hf) (h.finalized ▸ hz), (h.withPending _).raise _⟩
  | illegalCommand hp hd hf =>
    exact ⟨_, .illegalCommand (h.pending ▸ hp) hd (h.fault ▸ hf), (h.withPending _).raise _⟩

end SameButHidden

/-- Settles O44: the second state takes the same effect, and no output reads the buffer. -/
theorem hiddenBytesAreUnobservable : Obligations.HiddenBytesAreUnobservable := by
  intro s t s' h hs ht hstep
  obtain ⟨t', he, h'⟩ := h.step hs ht (step_eq_next_iff.mp hstep)
  exact ⟨t', he.step_eq, h', h'.outPorts_eq⟩

end Sys2Proof.Machine
end

section
/-! SUPPORT. The message stream: it is empty in a fresh engine, and `absorb_byte` makes it one byte longer (10_state.md R32
item 5, 40_init_absorb.md R93). -/

namespace Sys2Proof.Machine

/-- A block that a stream has complete stays as it is when the stream grows. -/
theorem blockOf_append {m : List Byte} {k : Nat} (h : 64 * (k + 1) ≤ m.length) (p : List Byte) :
    blockOf (m ++ p) k = blockOf m k := by
  refine Vector.ext fun i hi => ?_
  simp only [blockOf, Vector.getElem_ofFn]
  exact List.getD_append _ _ _ _ (by omega)

theorem chainAfter_append {m : List Byte} {k : Nat} (h : 64 * k ≤ m.length) (p : List Byte) :
    chainAfter (m ++ p) k = chainAfter m k := by
  induction k with
  | zero => rfl
  | succ k ih => rw [chainAfter, chainAfter, ih (by omega), blockOf_append h]

theorem absorbed_nil_freshEngine {s : State} (hf : s.fault = false) : Absorbed [] (freshEngine s) where
  notFaulted := hf
  notSpent := rfl
  length := rfl
  chain := rfl
  rest _ ha := absurd ha (Nat.not_lt_zero _)

/-- Settles O48: both `INIT` and reset create a fresh engine. -/
theorem creationStartsTheStream : Obligations.CreationStartsTheStream :=
  ⟨absorbed_nil_freshEngine (s := State.reset) rfl,
    fun s hf => ⟨freshEngine s, execInit_of_ok hf, absorbed_nil_freshEngine hf, rfl⟩⟩

namespace Absorbed
variable {m : List Byte} {s : State}

theorem bufferLen_eq (h : Absorbed m s) : s.bufferLen.toNat = m.length % 64 := by
  have := s.bufferLen.isLt
  have := h.length
  omega

theorem blockCount_eq (h : Absorbed m s) : s.blockCount.toNat = m.length / 64 := by
  have := s.bufferLen.isLt
  have := h.length
  omega

/-- What the buffer reads as once the next byte of the stream is stored. -/
theorem readAt_memWrite1 (h : Absorbed m s) (hwf : s.buffer.wf = true) (v : Byte) {a : Nat}
    (ha : a ≤ s.bufferLen.toNat) :
    (memWrite1 s.buffer s.bufferLen v).readAt a = (m ++ [v]).getD (64 * s.blockCount.toNat + a) 0 := by
  have hlen := h.length
  have hn := s.bufferLen.isLt
  rw [memWrite1, Memory.readAt_writeAt hwf]
  obtain rfl | hlt := Nat.eq_or_lt_of_le ha
  · have hend : 64 * s.blockCount.toNat + s.bufferLen.toNat = m.length := by omega
    rw [if_pos rfl, hend, List.getD_append_right _ _ _ _ le_rfl, Nat.sub_self]
    rfl
  · rw [if_neg (by omega), List.getD_append _ _ _ _ (by omega)]
    have hrest := h.rest (BitVec.ofNat 6 a)
    rw [memRead1, BitVec.toNat_ofNat, Nat.mod_eq_of_lt (by omega)] at hrest
    exact hrest hlt

/-- `absorb_byte` makes the stream one byte longer, while fewer than 2^64 blocks are complete. -/
theorem absorbByte (h : Absorbed m s) (hwf : s.buffer.wf = true) (v : Byte) (hm : m.length + 1 < 2 ^ 70) :
    Absorbed (m ++ [v]) (absorbByte v s) := by
  have hlen := h.length
  have hchain : s.h = chainAfter (m ++ [v]) s.blockCount.toNat := by rw [chainAfter_append (by omega), h.chain]
  obtain ⟨hn, e⟩ | ⟨hn, e⟩ := absorbByte_cases v s
  · rw [e]
    refine { h with length := ?_, chain := hchain, rest := fun a ha => ?_ }
    · rw [List.length_append, hlen, toNat_succ_len hn, List.length_singleton, Nat.add_assoc]
    · rw [toNat_succ_len hn] at ha
      exact h.readAt_memWrite1 hwf v (Nat.le_of_lt_succ ha)
  · have hcount : (s.blockCount + 1).toNat = s.blockCount.toNat + 1 := by
      rw [BitVec.toNat_add]
      exact Nat.mod_eq_of_lt (by simp; omega)
    have hblock : (memWrite1 s.buffer s.bufferLen v).block = blockOf (m ++ [v]) s.blockCount.toNat := by
      refine Vector.ext fun i hi => ?_
      rw [Memory.block_getElem, h.readAt_memWrite1 hwf v (by omega), blockOf, Vector.getElem_ofFn]
    rw [e]
    refine { h with length := ?_, chain := ?_, rest := fun a ha => absurd ha (Nat.not_lt_zero _) }
    · rw [List.length_append, List.length_singleton, hcount]
      change m.length + 1 = (s.blockCount.toNat + 1) * 64 + 0
      omega
    · rw [hcount, chainAfter, ← hchain, hblock]

end Absorbed

/-- Settles O49: `buffer_len` and `block_count` are read off the longer stream. -/
theorem absorbExtendsTheStream : Obligations.AbsorbExtendsTheStream := by
  intro m s v h hwf hm
  have h' := h.absorbByte hwf v hm
  refine ⟨absorbByte v s, execAbsorb_of_active h.notFaulted h.notSpent v, h', absorbByte_wf hwf v, ?_, ?_⟩
  · simpa using h'.bufferLen_eq
  · simpa using h'.blockCount_eq

end Sys2Proof.Machine
end

section
/-! SUPPORT. The host's stream: a step takes its oldest event and no other (20_memory.md R61). -/

namespace Sys2Proof.Machine

/-- No effect delivers an event, and each but the idle one takes the oldest. -/
theorem StepEffect.pending_eq_tail {s t : State} (h : StepEffect s t) : t.pending = s.pending.tail := by
  cases h with
  | idle hp => rw [hp, List.tail_nil]
  | reset hp | dropped hp | init hp | absorb hp | finalize hp | useAfterFinalize hp | illegalCommand hp => simp [hp]

/-- Settles O8: by the effects of a step, of which the idle one alone needs no event. -/
theorem stepTakesExactlyOneEvent : Obligations.StepTakesExactlyOneEvent := fun _ _ h =>
  ⟨(step_eq_next_iff.mp h).pending_eq_tail, fun hp => (StepEffect.idle hp).eq_of_step h⟩

end Sys2Proof.Machine
end

section
/-! SUPPORT. A block as sixteen big-endian words (20_memory.md R51). -/

namespace Sys2Proof.Machine

theorem parse_getElem (B : Block) (j : Nat) (hj : j < 16) :
    (parse B)[j] = wordOfBytes B[4 * j] B[4 * j + 1] B[4 * j + 2] B[4 * j + 3] :=
  Vector.getElem_ofFn hj

theorem memRead4_eq_parse_block (m : Memory) (j : Fin 16) : memRead4 m j = (parse m.block)[j.val] := by
  simp only [parse_getElem, Memory.block_getElem, memRead4]

/-- Settles O31: `wordOfBytes_toNat` gives the sum in nested form. -/
theorem blockParsesBigEndian : Obligations.BlockParsesBigEndian := by
  refine ⟨fun B j hj => ?_, memRead4_eq_parse_block⟩
  rw [parse_getElem, wordOfBytes_toNat]
  ring

end Sys2Proof.Machine
end

section
/-! SUPPORT. The command words as numbers, and the reserved ones as the gaps between them (30_encoding.md R71, R73). -/

namespace Sys2Proof

theorem decode_eq_ok_iff {cmd : CmdWord} {i : Instr} : decode cmd = .ok i ↔ cmd = encode i :=
  ⟨eq_encode_of_decode, fun h => h ▸ decode_encode i⟩

/-- Settles O1: by `decode_encode` and `eq_encode_of_decode`. -/
theorem decodeEncodeAgree : Obligations.DecodeEncodeAgree := fun _ _ => decode_eq_ok_iff

theorem encode_absorb_toNat (v : Byte) : (encode (.absorb v)).toNat = 0x200 + v.toNat :=
  Machine.toNat_append_eq 0b10#2 v

/-- A word is reserved exactly when it is no command's. -/
theorem exists_decode_error_iff {cmd : CmdWord} : (∃ e, decode cmd = .error e) ↔ ∀ i, cmd ≠ encode i := by
  refine ⟨fun ⟨e, he⟩ i hi => ?_, fun hne => ?_⟩
  · cases he.symm.trans (decode_eq_ok_iff.mpr hi)
  · cases hd : decode cmd with
    | ok i => exact absurd (eq_encode_of_decode hd) (hne i)
    | error e => exact ⟨e, rfl⟩

theorem exists_eq_encode_absorb_iff {cmd : CmdWord} :
    (∃ v, cmd = encode (.absorb v)) ↔ 0x200 ≤ cmd.toNat ∧ cmd.toNat ≤ 0x2FF := by
  refine ⟨?_, fun ⟨hlo, hhi⟩ => ⟨BitVec.ofNat 8 (cmd.toNat - 0x200), BitVec.eq_of_toNat_eq ?_⟩⟩
  · rintro ⟨v, rfl⟩
    have := v.isLt
    rw [encode_absorb_toNat]
    omega
  · rw [encode_absorb_toNat, BitVec.toNat_ofNat]
    omega

/-- Where the command words stand among the numbers below 1024. -/
theorem exists_eq_encode_iff {cmd : CmdWord} :
    (∃ i, cmd = encode i) ↔ cmd.toNat = 0x100 ∨ (0x200 ≤ cmd.toNat ∧ cmd.toNat ≤ 0x2FF) ∨ cmd.toNat = 0x300 := by
  have hinit : cmd = encode .init ↔ cmd.toNat = 0x100 := BitVec.toNat_inj.symm
  have hfinalize : cmd = encode .finalize ↔ cmd.toNat = 0x300 := BitVec.toNat_inj.symm
  rw [← hinit, ← hfinalize, ← exists_eq_encode_absorb_iff]
  refine ⟨?_, ?_⟩
  · rintro ⟨_ | v | _, hi⟩
    · exact .inl hi
    · exact .inr (.inl ⟨v, hi⟩)
    · exact .inr (.inr hi)
  · rintro (hi | ⟨v, hi⟩ | hi) <;> exact ⟨_, hi⟩

/-- The reserved words are the gaps before, between and after the command words. -/
theorem exists_decode_error_iff_range {cmd : CmdWord} : (∃ e, decode cmd = .error e) ↔
    cmd.toNat ≤ 0x0FF ∨ (0x101 ≤ cmd.toNat ∧ cmd.toNat ≤ 0x1FF) ∨ (0x301 ≤ cmd.toNat ∧ cmd.toNat ≤ 0x3FF) := by
  have := cmd.isLt
  rw [exists_decode_error_iff, ← not_exists, exists_eq_encode_iff]
  omega

/-- The predicates that select the legal and the reserved words split the 1024 words. -/
theorem length_filter_isSome_add_isNone (ws : List Nat) :
    (ws.filter fun n => (decode (BitVec.ofNat 10 n)).toOption.isSome).length +
      (ws.filter fun n => (decode (BitVec.ofNat 10 n)).toOption.isNone).length = ws.length := by
  simp only [← Option.not_isSome]
  exact (List.length_eq_length_filter_add _).symm

theorem isSome_toOption_decode_iff {cmd : CmdWord} : (decode cmd).toOption.isSome = true ↔ ∃ i, cmd = encode i := by
  simp only [← decode_eq_ok_iff]
  cases decode cmd <;> simp [Except.toOption]

/-- The legal words as numbers; `FINALIZE`'s follows the last of `ABSORB`'s. -/
theorem isSome_toOption_decode_ofNat {n : Nat} (hn : n < 1024) :
    (decode (BitVec.ofNat 10 n)).toOption.isSome = decide (n = 0x100 ∨ (0x200 ≤ n ∧ n ≤ 0x300)) := by
  rw [Bool.eq_iff_iff, isSome_toOption_decode_iff, exists_eq_encode_iff, decide_eq_true_iff, BitVec.toNat_ofNat,
    Nat.mod_eq_of_lt hn]
  omega

/-- The count of the legal words, taken over their ranges: the decoder is not run on each word. -/
theorem length_filter_legal :
    ((List.range 1024).filter fun n => (decode (BitVec.ofNat 10 n)).toOption.isSome).length = 258 := by
  rw [List.filter_congr fun n hn => isSome_toOption_decode_ofNat (List.mem_range.mp hn)]
  decide +kernel

/-- Settles O2: the ranges and the counts are facts about the words alone, the effects those of a reserved word's step. -/
theorem reservedWordsAreTheThreeRanges : Obligations.ReservedWordsAreTheThreeRanges := by
  refine ⟨fun _ => exists_decode_error_iff_range, length_filter_legal, ?_,
    fun s cmd e rest hp hd => ⟨fun hph => ?_, fun hph => ?_⟩⟩
  · have hsplit := length_filter_isSome_add_isNone (List.range 1024)
    rw [length_filter_legal, List.length_range] at hsplit
    omega
  · have hf : s.fault = false := Bool.eq_false_iff.mpr fun hf => hph (Machine.phase_eq_faulted_iff.mpr hf)
    exact (Machine.StepEffect.illegalCommand hp hd hf).step_eq
  · exact Machine.step_of_fault hp (Machine.phase_eq_faulted_iff.mp hph)

end Sys2Proof
end

section
/-! SUPPORT. The opcode table's rows as fields: a row selects command words only (30_encoding.md R71). -/

namespace Sys2Proof

open Sys2Proof.Machine (opField dataField)

/-- A row whose mask is all ones selects its own bits only. -/
theorem selects_full_mask_iff {name : String} {bits cmd : CmdWord} :
    OpcodeRow.selects ⟨name, bits, 0x3FF⟩ cmd = true ↔ cmd = bits := by
  have hmask : cmd &&& 0x3FF = cmd := BitVec.and_allOnes
  rw [OpcodeRow.selects, hmask, beq_iff_eq]

/-- The row of `ABSORB` looks at the operation code only. -/
theorem selects_absorb_row {cmd : CmdWord} (h : OpcodeRow.selects ⟨"ABSORB", 0x200, 0x300⟩ cmd = true) :
    cmd = encode (.absorb (dataField cmd)) := by
  have hmask : cmd &&& 0x300 = opField cmd ++ 0#8 := by
    calc cmd &&& 0x300 = (opField cmd ++ dataField cmd) &&& (BitVec.allOnes 2 ++ 0#8) := by rw [fields_append]; rfl
      _ = opField cmd ++ 0#8 := by rw [BitVec.and_append, BitVec.and_allOnes, BitVec.and_zero]
  have hop : opField cmd = 0b10#2 := by
    rw [OpcodeRow.selects, beq_iff_eq, hmask] at h
    exact (opField_append _ _).symm.trans (congrArg opField h)
  rw [encode, ← hop, fields_append]

theorem exists_eq_encode_of_selects {r : OpcodeRow} (hr : r ∈ opcodeRows) {cmd : CmdWord} (h : r.selects cmd = true) :
    ∃ i, cmd = encode i := by
  simp only [opcodeRows, List.mem_cons, List.not_mem_nil, or_false] at hr
  obtain rfl | rfl | rfl := hr
  · exact ⟨.init, selects_full_mask_iff.mp h⟩
  · exact ⟨_, selects_absorb_row h⟩
  · exact ⟨.finalize, selects_full_mask_iff.mp h⟩

/-- Settles O3: a command's word by its own row lemma, a reserved word because every row selects command words only. -/
theorem eachLegalWordSelectsOneRow : Obligations.EachLegalWordSelectsOneRow := by
  refine ⟨fun cmd i hd => ?_, fun cmd e hd => List.filter_eq_nil_iff.mpr fun r hr hsel => ?_⟩
  · rw [eq_encode_of_decode hd]
    cases i with
    | init => exact Laws.RowMatch.init
    | absorb v => exact Laws.RowMatch.absorb v
    | finalize => exact Laws.RowMatch.finalize
  · obtain ⟨i, hi⟩ := exists_eq_encode_of_selects hr hsel
    exact exists_decode_error_iff.mp ⟨e, hd⟩ i hi

/-- Settles O4: eight closed words. -/
theorem writtenOutWordsDecode : Obligations.WrittenOutWordsDecode := by
  unfold Obligations.WrittenOutWordsDecode
  decide

end Sys2Proof
end

section
/-! SUPPORT. The assembler: the numbers its lines stand for, and its pseudo-instructions (30_encoding.md R76, R77). -/

namespace Sys2Proof.Machine

theorem assembleLine_absorb_toNat (b : ByteLit) :
    (assembleLine (.absorb b)).map BitVec.toNat = [0x200 + (byteOfLit b).toNat] := by
  rw [assembleLine, List.map_singleton, encode_absorb_toNat]

/-- Settles O5: a well-formed operand fits its field, so nothing is cut off. -/
theorem assemblerEncodings : Obligations.AssemblerEncodings := by
  refine ⟨rfl, rfl, fun n hn => ?_, fun c hc => ?_, fun n hn => ?_⟩
  · have hlt : n < 256 := of_decide_eq_true hn
    rw [assembleLine_absorb_toNat, byteOfLit, BitVec.toNat_ofNat, Nat.mod_eq_of_lt hlt]
  · have hlt : c.toNat < 128 := of_decide_eq_true hc
    rw [assembleLine_absorb_toNat, byteOfLit, BitVec.toNat_ofNat, Nat.mod_eq_of_lt (by omega)]
  · have hlt : n < 1024 := of_decide_eq_true hn
    rw [assembleLine, List.map_singleton, BitVec.toNat_ofNat, Nat.mod_eq_of_lt hlt]

@[simp] theorem assemble_nil : assemble [] = [] := rfl

@[simp] theorem assemble_cons (l : AsmLine) (ls : List AsmLine) : assemble (l :: ls) = assembleLine l ++ assemble ls :=
  List.flatMap_cons

theorem assemble_map_absorb (bs : List ByteLit) : assemble (bs.map .absorb) = absorbsWords (bs.map byteOfLit) := by
  induction bs with
  | nil => rfl
  | cons b bs ih =>
    rw [List.map_cons, assemble_cons, ih]
    rfl

/-- Settles O6: `ABSORBS` byte by byte, and `HASH` line by line. -/
theorem pseudoInstructionsExpand : Obligations.PseudoInstructionsExpand := by
  refine fun bs => ⟨?_, ?_⟩
  · rw [assemble_map_absorb, assemble_cons, assemble_nil, List.append_nil, assembleLine]
  · simp [assembleLine, hashWords]

end Sys2Proof.Machine
end

section
/-! SUPPORT. How a command comes to be performed: off the stream, by the host's offer, and through the ports (30_encoding.md
R74, R79). -/

namespace Sys2Proof.Machine

/-- Settles O7: by `step_decoded`. -/
theorem stepPerformsTheDecodedCommand : Obligations.StepPerformsTheDecodedCommand := fun _ _ _ _ hp hd =>
  step_decoded hp hd

/-- An offered word is performed on the state as it was before the offer. -/
theorem step_offerNext (cmd : CmdWord) (s : State) : step (offerNext cmd s) = perform cmd s :=
  step_command (offerNext_pending cmd s)

theorem withFetchWord_of_tableCommand {nbits w : Nat} {cmd : CmdWord} (h : tableCommand nbits w = some cmd) (s : State) :
    s.withFetchWord nbits w = offerNext cmd s := by
  simp [State.withFetchWord, h]

/-- A table word decodes when it fits the port and its command word decodes. -/
theorem exists_tableCommand_of_decodeTableWord {nbits w : Nat} {i : Instr} (h : decodeTableWord nbits w = some i) :
    ∃ cmd, tableCommand nbits w = some cmd ∧ decode cmd = .ok i := by
  unfold decodeTableWord at h
  cases hcmd : tableCommand nbits w with
  | none => simp [hcmd] at h
  | some cmd =>
    cases hd : decode cmd with
    | error e => simp [hcmd, hd] at h
    | ok j =>
      obtain rfl : j = i := by simpa [hcmd, hd] using h
      exact ⟨cmd, rfl, hd⟩

/-- Settles O9: offering the word puts its command in front of the stream. -/
theorem offeredWordIsPerformedNext : Obligations.OfferedWordIsPerformedNext := by
  intro s nbits w i h
  obtain ⟨cmd, hcmd, hd⟩ := exists_tableCommand_of_decodeTableWord h
  rw [withFetchWord_of_tableCommand hcmd, step_offerNext, perform_ok hd]

theorem cmdReady_iff {s : State} : cmdReady s = true ↔ s.pending = [] :=
  List.isEmpty_iff

section Ports
variable {p : InPorts} {s : State}

/-- Accepting a command is the host's offer of it to an engine with nothing outstanding. -/
theorem acceptPorts_of_handshake (hrst : p.rst = false) (hvalid : p.cmdValid = true) (hready : cmdReady s = true) :
    acceptPorts p s = offerNext p.cmd s := by
  simp [acceptPorts, offerNext, hrst, hvalid, hready, cmdReady_iff.mp hready]

theorem acceptPorts_of_no_handshake (hrst : p.rst = false) (h : p.cmdValid = false ∨ cmdReady s = false) :
    acceptPorts p s = s := by
  obtain h | h := h <;> simp [acceptPorts, hrst, h]

end Ports

/-- Settles O11: the accepted command is the only event outstanding, and the step takes it. -/
theorem handshakeAcceptsAndPerforms : Obligations.HandshakeAcceptsAndPerforms := by
  refine fun p s hrst => ⟨fun hvalid hready => ?_, acceptPorts_of_no_handshake hrst, fun t hready hvalid h => ?_⟩
  · rw [acceptPorts_of_handshake hrst hvalid hready, step_offerNext]
  · rw [acceptPorts_of_handshake hrst hvalid hready] at h
    rw [cmdReady_iff, (step_eq_next_iff.mp h).pending_eq_tail, offerNext_pending, List.tail_cons, cmdReady_iff.mp hready]

end Sys2Proof.Machine
end

section
/-! SUPPORT. A run over the words of `ABSORBS` is `absorb_byte` for each byte, which reads and writes nothing of the host's
stream (30_encoding.md R77, 40_init_absorb.md R94). -/

namespace Sys2Proof.Machine

theorem absorbByte_withPending (v : Byte) (s : State) (p : List HostEvent) :
    absorbByte v { s with pending := p } = { absorbByte v s with pending := p } := by
  obtain ⟨hn, e⟩ | ⟨hn, e⟩ := absorbByte_cases v s <;> rw [e]
  · exact absorbByte_partial (s := { s with pending := p }) hn v
  · exact absorbByte_full (s := { s with pending := p }) hn v

section Run
variable {s : State}

/-- An ACTIVE engine performs the words of `ABSORBS` in front of its stream, and the rest of the stream stays. -/
theorem run_absorbsWords {vs : List Byte} {rest : List HostEvent}
    (hp : s.pending = (absorbsWords vs).map .command ++ rest) (hf : s.fault = false) (hz : s.finalized = false) :
    run vs.length s = .next (absorbBytes vs { s with pending := rest }) := by
  induction vs generalizing s with
  | nil =>
    obtain rfl : s.pending = rest := hp
    rfl
  | cons v vs ih =>
    have hstep := (StepEffect.absorb hp (decode_encode (.absorb v)) hf hz).step_eq
    rw [List.length_cons, run_succ hstep, ih (absorbByte_pending v _) (by simpa using hf) (by simpa using hz),
      ← absorbByte_withPending, absorbBytes_cons]

theorem run_deliver_absorbsWords (hf : s.fault = false) (hz : s.finalized = false) (vs : List Byte) :
    run vs.length (deliver (absorbsWords vs) s) = .next (absorbBytes vs (deliver [] s)) :=
  run_absorbsWords (s := deliver (absorbsWords vs) s) (List.append_nil _).symm hf hz

theorem deliver_nil_of_pending (hp : s.pending = []) : deliver [] s = s := by
  cases s
  cases hp
  rfl

end Run

/-- Settles O26: absorbing is a left fold over the bytes, and an ACTIVE engine that has absorbed them is ACTIVE with nothing
outstanding. -/
theorem chunkingInvariance : Obligations.ChunkingInvariance := by
  intro x y s hs
  obtain ⟨hf, hz⟩ := phase_eq_active_iff.mp hs
  have hactive (vs : List Byte) : phase (absorbBytes vs (deliver [] s)) = .active :=
    phase_eq_active_iff.mpr ⟨(absorbBytes_fault vs _).trans hf, (absorbBytes_finalized vs _).trans hz⟩
  obtain ⟨hfx, hzx⟩ := phase_eq_active_iff.mp (hactive x)
  have hidle : deliver [] (absorbBytes x (deliver [] s)) = absorbBytes x (deliver [] s) :=
    deliver_nil_of_pending (absorbBytes_pending x _)
  refine ⟨_, _, run_deliver_absorbsWords hf hz x, hactive x, ?_, hactive (x ++ y), ?_⟩
  · rw [run_deliver_absorbsWords hfx hzx, hidle, absorbBytes_append]
  · rw [← List.length_append, run_deliver_absorbsWords hf hz]

end Sys2Proof.Machine
end

section
/-! SUPPORT. `INIT` and `ABSORB`, each on the engine it applies to, register by register (40_init_absorb.md R90 to R93). -/

namespace Sys2Proof.Machine

/-- Settles O23: a fresh engine keeps the fault registers, so a second `INIT` finds no fault and writes the same values. -/
theorem initMakesAFreshEngine : Obligations.InitMakesAFreshEngine := by
  refine ⟨decode_encode .init, fun s => ⟨fun hf => ?_, fun hf => exec_of_fault hf .init⟩⟩
  exact ⟨freshEngine s, execInit_of_ok hf, fun _ _ => rfl, memRead1_clear, rfl, rfl, rfl, rfl, rfl, rfl, rfl, rfl,
    execInit_of_ok (s := freshEngine s) hf⟩

/-- Settles O24: by `absorbByte_partial` and read after write. -/
theorem absorbWithRoomStoresTheByte : Obligations.AbsorbWithRoomStoresTheByte := by
  intro s v hwf hf hz hn
  have hlt : s.bufferLen.toNat < 63 := Nat.lt_succ_of_le hn
  refine ⟨_, (execAbsorb_of_active hf hz v).trans (congrArg _ (absorbByte_partial hlt v)), ?_, fun a ha => ?_,
    toNat_succ_len hlt, rfl, rfl, rfl, rfl, rfl, rfl⟩
  · rw [memRead1_memWrite1 hwf, if_pos rfl]
  · rw [memRead1_memWrite1 hwf, if_neg ha]

/-- The block a write to the buffer makes, byte by byte. -/
theorem block_memWrite1 {m : Memory} (h : m.wf = true) (n : BitVec 6) (v : Byte) :
    (memWrite1 m n v).block =
      Vector.ofFn fun i => if i.val = n.toNat then v else memRead1 m (BitVec.ofNat 6 i.val) := by
  refine Vector.ext fun i hi => ?_
  rw [Memory.block_getElem, memWrite1, Memory.readAt_writeAt h, Vector.getElem_ofFn, memRead1, BitVec.toNat_ofNat,
    Nat.mod_eq_of_lt hi]

/-- Settles O25: by `absorbByte_full`; the block compressed is the buffer with the byte at index 63. -/
theorem absorbOfTheLastByteCompresses : Obligations.AbsorbOfTheLastByteCompresses := by
  intro s v hwf hf hz hn
  have hfull : s.bufferLen.toNat = 63 := by rw [hn]; rfl
  refine ⟨_, (execAbsorb_of_active hf hz v).trans (congrArg _ (absorbByte_full hfull v)), ?_, memRead1_clear, rfl,
    BitVec.toNat_add _ _, rfl, rfl, rfl, rfl⟩
  rw [block_memWrite1 hwf, hfull]

end Sys2Proof.Machine
end

section
/-! SUPPORT. The word functions bit by bit, and their sums as numbers (41_word_functions.md R110 to R120). -/

namespace Sys2Proof.Machine

@[simp] theorem toNat_add32 (x y : Word) : (add32 x y).toNat = (x.toNat + y.toNat) % 2 ^ 32 := BitVec.toNat_add x y

@[simp] theorem getLsbD_xor32 (x y : Word) (i : Nat) : (xor32 x y).getLsbD i = (x.getLsbD i ^^ y.getLsbD i) :=
  BitVec.getLsbD_xor

@[simp] theorem getLsbD_and32 (x y : Word) (i : Nat) : (and32 x y).getLsbD i = (x.getLsbD i && y.getLsbD i) :=
  BitVec.getLsbD_and

@[simp] theorem getLsbD_not32 {i : Nat} (hi : i < 32) (x : Word) : (not32 x).getLsbD i = !x.getLsbD i := by
  rw [not32, BitVec.getLsbD_not, decide_eq_true hi, Bool.true_and]

/-- Every bit the shift reads past bit 31 is 0, so no case is needed here. -/
@[simp] theorem getLsbD_shr (x : Word) (n i : Nat) : (shr x n).getLsbD i = x.getLsbD (i + n) := by
  rw [shr, BitVec.getLsbD_ushiftRight, Nat.add_comm]

theorem toNat_shr (x : Word) (n : Nat) : (shr x n).toNat = x.toNat / 2 ^ n := by
  rw [shr, BitVec.toNat_ushiftRight, Nat.shiftRight_eq_div_pow]

/-- A word has no bit outside positions 0 to 31, so a test of the position before reading it changes nothing. -/
theorem decide_and_getLsbD {p : Nat → Prop} [DecidablePred p] (x : Word) (k : Nat) (h : k < 32 → p k) :
    (decide (p k) && x.getLsbD k) = x.getLsbD k :=
  Bool.and_eq_right_iff_imp.mpr fun hk => decide_eq_true (h (BitVec.lt_of_getLsbD hk))

/-- A bit of a rotation comes from the right shift where `i + n` stays in the word, and from the left shift where it wraps. -/
theorem getLsbD_rotr {n i : Nat} (hn : n ≤ 32) (hi : i < 32) (x : Word) :
    (rotr x n).getLsbD i = x.getLsbD ((i + n) % 32) := by
  rw [rotr, BitVec.getLsbD_or, BitVec.getLsbD_ushiftRight, BitVec.getLsbD_shiftLeft, Nat.add_comm n i]
  obtain hin | hwrap := Nat.lt_or_ge (i + n) 32
  · have hleft : i < 32 - n := by omega
    simp [Nat.mod_eq_of_lt hin, hleft]
  · have hleft : ¬ i < 32 - n := by omega
    have hplace : (i + n) % 32 = i - (32 - n) := by omega
    simp [BitVec.getLsbD_of_ge x _ hwrap, hi, hleft, hplace]

/-- Settles O27: `>>` and `rotr` bit by bit; the position test of `>>` is redundant for a word. -/
theorem rotateAndShiftBits : Obligations.RotateAndShiftBits := by
  refine ⟨fun x n i _ hn hi => getLsbD_rotr hn hi x, fun x n i => ?_, toNat_shr⟩
  rw [getLsbD_shr, decide_and_getLsbD (p := (· ≤ 31)) x (i + n) Nat.le_of_lt_succ]

/-- Settles O28: by the formulas at one bit, where the claim is a fact about three Booleans. -/
theorem chooseAndMajorityBits : Obligations.ChooseAndMajorityBits := by
  intro x y z i hi
  constructor
  · simp only [ch, getLsbD_xor32, getLsbD_and32, getLsbD_not32 hi]
    cases x.getLsbD i <;> simp
  · simp only [maj, getLsbD_xor32, getLsbD_and32]
    generalize x.getLsbD i = a, y.getLsbD i = b, z.getLsbD i = c
    revert a b c
    decide

/-- Settles O29: by the bits of the rotations and of the shifts, whose position test is redundant for a word. -/
theorem sigmaBits : Obligations.SigmaBits := by
  intro x i hi
  have hrot {n : Nat} (hn : n ≤ 32) : (rotr x n).getLsbD i = x.getLsbD ((i + n) % 32) := getLsbD_rotr hn hi x
  have hshift (n : Nat) : (decide (i + n < 32) && x.getLsbD (i + n)) = (shr x n).getLsbD i :=
    (decide_and_getLsbD (p := (· < 32)) x (i + n) id).trans (getLsbD_shr x n i).symm
  refine ⟨?_, ?_, ?_, ?_⟩
  · rw [hshift, smallSigma0, getLsbD_xor32, getLsbD_xor32, hrot (by decide), hrot (by decide)]
  · rw [hshift, smallSigma1, getLsbD_xor32, getLsbD_xor32, hrot (by decide), hrot (by decide)]
  · rw [bigSigma0, getLsbD_xor32, getLsbD_xor32, hrot (by decide), hrot (by decide), hrot (by decide)]
  · rw [bigSigma1, getLsbD_xor32, getLsbD_xor32, hrot (by decide), hrot (by decide), hrot (by decide)]

/-- Settles O30: a sum reduced once more than at its end has the same remainder. -/
theorem sumsReduceOnceAtTheEnd : Obligations.SumsReduceOnceAtTheEnd := by
  refine ⟨fun v k w => ?_, fun v => toNat_add32 _ _, fun w16 w15 w7 w2 => ?_⟩
  · simp only [roundT1, toNat_add32, Nat.mod_add_mod]
  · simp only [nextWord, toNat_add32, Nat.mod_add_mod]

end Sys2Proof.Machine
end

section
/-! SUPPORT. The words of the full schedule, read off the expansions by fewer words (42_schedule.md R131). -/

namespace Sys2Proof.Machine

/-- The expansion by no further word is the parsed block. -/
theorem schedule_getElem_of_lt (B : Block) {j : Nat} (hj : j < 16) : (schedule B)[j] = (parse B)[j] :=
  schedule_getElem_eq_expandTo B (n := 0) (by omega) hj

/-- The newest word of the expansion by `n + 1` words is that of the words before it, all in the expansion by `n`. -/
theorem schedule_getElem_add (B : Block) {n : Nat} (hn : 16 + n < 64) :
    (schedule B)[16 + n] =
      nextWord (schedule B)[n] (schedule B)[n + 1] (schedule B)[n + 9] (schedule B)[n + 14] := by
  have hbefore (i : Nat) (hi : i < 16 + n) : (schedule B)[i] = (expandTo (parse B) n)[i] :=
    schedule_getElem_eq_expandTo B (by omega) hi
  rw [schedule_getElem_eq_expandTo B (n := n + 1) hn (by omega), expandTo_last, hbefore n (by omega),
    hbefore (n + 1) (by omega), hbefore (n + 9) (by omega), hbefore (n + 14) (by omega)]

/-- Settles O32: a word from 16 on is word `16 + n`, and the sum is `nextWord` of the words 16, 15, 7 and 2 before it. -/
theorem scheduleRecurrence : Obligations.ScheduleRecurrence := by
  refine fun B => ⟨fun j hj => schedule_getElem_of_lt B hj, fun i h16 hi => ?_⟩
  obtain ⟨n, rfl⟩ := Nat.exists_eq_add_of_le h16
  have h15 : 16 + n - 15 = n + 1 := by omega
  have h7 : 16 + n - 7 = n + 9 := by omega
  have h2 : 16 + n - 2 = n + 14 := by omega
  simp only [Nat.add_sub_cancel_left, h15, h7, h2]
  exact schedule_getElem_add B hi

/-- Settles O33: the window is the last sixteen words of the expansion so far, by induction on the clocks. -/
theorem windowHoldsTheScheduleWords : Obligations.WindowHoldsTheScheduleWords :=
  coreAfter_window_eq_schedule

end Sys2Proof.Machine
end

section
/-! SUPPORT. One round over the primitive operations, and the working variables of a compression as one sequence (43_compress.md
R142 to R148). -/

namespace Sys2Proof.Machine

theorem bigSigma0_eq (x : Word) : bigSigma0 x = rotr x 2 ^^^ rotr x 13 ^^^ rotr x 22 := rfl

theorem bigSigma1_eq (x : Word) : bigSigma1 x = rotr x 6 ^^^ rotr x 11 ^^^ rotr x 25 := rfl

theorem ch_eq (e f g : Word) : ch e f g = (e &&& f) ^^^ (~~~e &&& g) := rfl

theorem maj_eq (a b c : Word) : maj a b c = (a &&& b) ^^^ (a &&& c) ^^^ (b &&& c) := rfl

theorem roundT1_eq (v : WorkVars) (k w : Word) : roundT1 v k w = v.h + bigSigma1 v.e + ch v.e v.f v.g + k + w := rfl

theorem roundT2_eq (v : WorkVars) : roundT2 v = bigSigma0 v.a + maj v.a v.b v.c := rfl

theorem roundStep_eq (v : WorkVars) (k w : Word) :
    roundStep v k w = ⟨roundT1 v k w + roundT2 v, v.a, v.b, v.c, v.d + roundT1 v k w, v.e, v.f, v.g⟩ := rfl

/-- Settles O35: the round in terms of `T1` and `T2`, and these in terms of the four word functions, each written out. -/
theorem roundUpdatesTheWorkingVariables : Obligations.RoundUpdatesTheWorkingVariables := by
  intro v k w t1 t2
  have ht1 : roundT1 v k w = t1 := by rw [roundT1_eq, bigSigma1_eq, ch_eq]
  have ht2 : roundT2 v = t2 := by rw [roundT2_eq, bigSigma0_eq, maj_eq]
  rw [roundStep_eq, ht1, ht2]

/-- The working variables of `compress S B` after `n` rounds; from round 64 on they stay as they are. -/
def roundVars (S : Chain) (B : Block) (n : Nat) : WorkVars :=
  afterRounds (schedule B) (loadVars S) (min n 64) (Nat.min_le_right n 64)

theorem roundVars_of_le (S : Chain) (B : Block) {n : Nat} (h : n ≤ 64) :
    roundVars S B n = afterRounds (schedule B) (loadVars S) n h := by
  simp only [roundVars, Nat.min_eq_left h]

theorem roundVars_zero (S : Chain) (B : Block) : roundVars S B 0 = loadVars S :=
  roundVars_of_le S B (Nat.zero_le 64)

theorem roundVars_succ (S : Chain) (B : Block) {i : Nat} (h : i < 64) :
    roundVars S B (i + 1) = roundStep (roundVars S B i) Config.K[i] (schedule B)[i] := by
  rw [roundVars_of_le S B h, roundVars_of_le S B h.le, afterRounds]

theorem compress_eq_feedForward_roundVars (S : Chain) (B : Block) : compress S B = feedForward S (roundVars S B 64) := by
  rw [compress_eq, roundVars_of_le S B (Nat.le_refl 64)]

theorem feedForward_eq (S : Chain) (v : WorkVars) :
    feedForward S v = #v[S[0] + v.a, S[1] + v.b, S[2] + v.c, S[3] + v.d, S[4] + v.e, S[5] + v.f, S[6] + v.g, S[7] + v.h] := rfl

/-- Settles O36: the sequence is `roundVars`, whose last value the feed-forward adds to the state. -/
theorem compressIsSixtyFourRoundsAndFeedForward : Obligations.CompressIsSixtyFourRoundsAndFeedForward := by
  refine fun S B => ⟨roundVars S B, roundVars_zero S B, fun i hi => roundVars_succ S B hi, ?_⟩
  rw [compress_eq_feedForward_roundVars, feedForward_eq]

end Sys2Proof.Machine
end

section
/-! SUPPORT. The message length in bits, as a number and as wires, and the one stop of `FINALIZE` (44_finalize.md R161, R169). -/

namespace Sys2Proof.Machine

theorem totalBits_of_absorbed {m : List Byte} {s : State} (h : Absorbed m s) : totalBits s = 8 * m.length := by
  rw [h.length, totalBits]
  ring

/-- Reducing to 64 bits drops the top nine of `block_count` and keeps the rest as wires; no precondition is needed. -/
theorem ofNat_totalBits (s : State) :
    BitVec.ofNat 64 (totalBits s) = s.blockCount.extractLsb' 0 55 ++ s.bufferLen ++ 0b000#3 := by
  apply BitVec.eq_of_toNat_eq
  have hwires : (s.blockCount.extractLsb' 0 55 ++ s.bufferLen ++ 0b000#3).toNat =
      (s.blockCount.toNat % 2 ^ 55 * 2 ^ 6 + s.bufferLen.toNat) * 2 ^ 3 := by
    rw [toNat_append_eq, toNat_append_eq]
    rfl
  have := s.bufferLen.isLt
  rw [hwires, BitVec.toNat_ofNat, totalBits]
  omega

/-- Settles O37: `buffer_len` is below 64, so the bound on `block_count` bounds the sum. -/
theorem messageLengthIsWiring : Obligations.MessageLengthIsWiring := by
  intro s hb
  have := s.bufferLen.isLt
  have hsum : totalBits s = s.bufferLen.toNat * 8 + s.blockCount.toNat * 512 := Nat.add_comm _ _
  exact ⟨by omega, by omega, hsum, fun m h => totalBits_of_absorbed h, ofNat_totalBits s⟩

theorem maxBlocks_le_iff {s : State} : Config.maxBlocks ≤ s.blockCount.toNat ↔ 2 ^ 64 ≤ totalBits s := by
  have := s.bufferLen.isLt
  unfold totalBits Config.maxBlocks
  omega

/-- Settles O41: below the bound `FINALIZE` completes, and from the bound on it is refused. -/
theorem finalizeOfATooLongMessageIsRefused : Obligations.FinalizeOfATooLongMessageIsRefused := by
  refine fun s hf hz => ⟨⟨fun h => ?_, execFinalize_of_tooLong hf hz⟩, maxBlocks_le_iff⟩
  by_contra hb
  cases h.symm.trans (execFinalize_of_active hf hz (Nat.not_le.mp hb))

end Sys2Proof.Machine
end

section
/-! SUPPORT. The padding byte by byte, and the blocks it completes (44_finalize.md R162 to R165, R170). -/

namespace Sys2Proof.Machine

/-- Settles O38: by the closed form of the padding's length. -/
theorem paddingCompletesOneOrTwoBlocks : Obligations.PaddingCompletesOneOrTwoBlocks := by
  intro s
  have := s.bufferLen.isLt
  rw [padding_length, paddingLen_totalBits]
  omega

/-- The bytes of the padding: the marker, zeros, and the length in the last eight. -/
theorem padding_getD (bits k : Nat) :
    (padding bits).getD k 0 =
      if k = 0 then 0x80
      else if k < paddingLen bits / 8 + 1 then 0
      else (be64 (BitVec.ofNat 64 bits)).toList.getD (k - (paddingLen bits / 8 + 1)) 0 := by
  unfold padding
  obtain rfl | hk := Nat.eq_zero_or_pos k
  · rfl
  · rw [if_neg (by omega)]
    obtain hzeros | hlength := Nat.lt_or_ge k (paddingLen bits / 8 + 1)
    · rw [if_pos hzeros, List.getD_append _ _ _ _ (by simpa [Nat.add_comm] using hzeros), List.getD_append_right _ _ _ _ hk]
      simp
    · rw [if_neg (by omega), List.getD_append_right _ _ _ _ (by simpa [Nat.add_comm] using hlength)]
      simp [Nat.add_comm]

/-- A run of one block's bytes from a block boundary: the run is the block. -/
theorem absorbBytes_fill_empty {s : State} (hbuf : s.buffer = Memory.clear) (hn : s.bufferLen = 0) (vs : List Byte)
    (hlen : vs.length = 64) :
    absorbBytes vs s =
      { s with
        h := compress s.h (Vector.ofFn fun i => vs.getD i.val 0)
        buffer := Memory.clear
        blockCount := s.blockCount + 1
        bufferLen := 0 } := by
  have hn' : s.bufferLen.toNat = 0 := congrArg BitVec.toNat hn
  have hfill := absorbBytes_fill (s := s) (hbuf ▸ Memory.wf_clear) vs (by rw [hn', hlen])
  simpa only [hn', Nat.not_lt_zero, if_false, Nat.sub_zero] using hfill

/-- A run of bytes that completes two blocks: the bytes held come first, then the run. -/
theorem absorbBytes_fill_two {s : State} (hwf : s.buffer.wf = true) (vs : List Byte)
    (hlen : s.bufferLen.toNat + vs.length = 128) :
    absorbBytes vs s =
      { s with
        h := compress
          (compress s.h (Vector.ofFn fun i =>
            if i.val < s.bufferLen.toNat then s.buffer.readAt i.val else vs.getD (i.val - s.bufferLen.toNat) 0))
          (Vector.ofFn fun i => vs.getD (64 - s.bufferLen.toNat + i.val) 0)
        buffer := Memory.clear
        blockCount := s.blockCount + 1 + 1
        bufferLen := 0 } := by
  have hn := s.bufferLen.isLt
  obtain ⟨us, ws, rfl, hus⟩ : ∃ us ws, vs = us ++ ws ∧ us.length = 64 - s.bufferLen.toNat :=
    ⟨vs.take _, vs.drop _, (List.take_append_drop _ _).symm, List.length_take_of_le (by omega)⟩
  rw [List.length_append] at hlen
  have hfirst (i : Fin 64) : us.getD (i.val - s.bufferLen.toNat) 0 = (us ++ ws).getD (i.val - s.bufferLen.toNat) 0 :=
    (List.getD_append _ _ _ _ (by omega)).symm
  have hsecond (i : Fin 64) : ws.getD i.val 0 = (us ++ ws).getD (64 - s.bufferLen.toNat + i.val) 0 := by
    rw [← hus, List.getD_append_right _ _ _ _ (Nat.le_add_right _ _), Nat.add_sub_cancel_left]
  rw [absorbBytes_append, absorbBytes_fill hwf us (by omega), absorbBytes_fill_empty rfl rfl ws (by omega)]
  simp only [hfirst, hsecond]

end Sys2Proof.Machine
end

section
/-! SUPPORT. `FINALIZE` on an ACTIVE engine, in one block and in two (44_finalize.md R165, R171). -/

namespace Sys2Proof.Machine

theorem memRead1_ofNat (m : Memory) {i : Nat} (hi : i < 64) : memRead1 m (BitVec.ofNat 6 i) = m.readAt i := by
  rw [memRead1, BitVec.toNat_ofNat, Nat.mod_eq_of_lt hi]

/-- The padding by position: it begins at `n`, and the length begins at `e`. -/
theorem padding_getD_sub {bits n e p : Nat} (he : n + (paddingLen bits / 8 + 1) = e) (hp : n ≤ p) :
    (padding bits).getD (p - n) 0 =
      if p = n then 0x80 else if p < e then 0 else (be64 (BitVec.ofNat 64 bits)).toList.getD (p - e) 0 := by
  obtain ⟨k, rfl⟩ := Nat.exists_eq_add_of_le hp
  subst he
  rw [Nat.add_sub_cancel_left, padding_getD, Nat.add_sub_add_left]
  simp

/-- What `FINALIZE` leaves, from what absorbing the padding leaves: the same with the spent mark set. -/
theorem exec_finalize_of_padded {s t : State} (hf : s.fault = false) (hz : s.finalized = false)
    (hb : s.blockCount.toNat < 2 ^ 55) (ht : absorbBytes (padding (totalBits s)) s = t) :
    exec .finalize s = .next { t with finalized := true } :=
  ht ▸ execFinalize_of_active hf hz hb

/-- Settles O39: the padding completes one block, with the length from byte 56 on. -/
theorem finalizeInOneBlock : Obligations.FinalizeInOneBlock := by
  intro s hwf hf hz hb hn
  obtain ⟨-, -, hone, -⟩ := paddingCompletesOneOrTwoBlocks s
  have hfill := absorbBytes_fill hwf _ (hone hn)
  have hlength : s.bufferLen.toNat + (paddingLen (totalBits s) / 8 + 1) = 56 := by
    rw [paddingLen_totalBits]
    omega
  refine ⟨_, exec_finalize_of_padded hf hz hb hfill, congrArg _ (Vector.ext fun i hi => ?_), memRead1_clear, rfl, rfl,
    rfl, digestOut_of_valid (digestValid_iff.mpr ⟨rfl, hf⟩), rfl, rfl, rfl⟩
  simp only [Vector.getElem_ofFn]
  split
  · exact (memRead1_ofNat _ hi).symm
  · next hge => exact padding_getD_sub hlength (Nat.not_lt.mp hge)

/-- Settles O40: the padding completes two blocks, with the length from byte 120 on, byte 56 of the second. -/
theorem finalizeInTwoBlocks : Obligations.FinalizeInTwoBlocks := by
  intro s hwf hf hz hb hn
  obtain ⟨-, -, -, htwo⟩ := paddingCompletesOneOrTwoBlocks s
  have hfill := absorbBytes_fill_two hwf _ (htwo hn)
  have := s.bufferLen.isLt
  have hlength : s.bufferLen.toNat + (paddingLen (totalBits s) / 8 + 1) = 120 := by
    rw [paddingLen_totalBits]
    omega
  refine ⟨_, exec_finalize_of_padded hf hz hb hfill,
    congrArg₂ compress (congrArg _ (Vector.ext fun i hi => ?_)) (Vector.ext fun i hi => ?_), memRead1_clear, rfl,
    BitVec.add_assoc _ _ _, rfl, digestOut_of_valid (digestValid_iff.mpr ⟨rfl, hf⟩), rfl, rfl, rfl⟩
  · simp only [Vector.getElem_ofFn]
    split
    · exact (memRead1_ofNat _ hi).symm
    · next hge => rw [padding_getD_sub hlength (Nat.not_lt.mp hge), if_pos (show i < 120 by omega)]
  · simp only [Vector.getElem_ofFn]
    have hplace : 64 - s.bufferLen.toNat + i = 64 + i - s.bufferLen.toNat := by omega
    have hzeros : 64 + i < 120 ↔ i < 56 := by omega
    have hlast : 64 + i - 120 = i - 56 := by omega
    rw [hplace, padding_getD_sub hlength (by omega), if_neg (by omega)]
    simp only [hzeros, hlast]
    rfl

end Sys2Proof.Machine
end

section
/-! SUPPORT. The digest of the message: the padding extends the stream to the padded message, whose blocks `FINALIZE` has then all
compressed (44_finalize.md R168, 70_reset_and_hazards.md R207). -/

namespace Sys2Proof.Machine

theorem paddedMessage_eq (m : List Byte) : paddedMessage m = m ++ padding (8 * m.length) := by
  have hzeros : ((55 - (m.length : Int)) % 64).toNat = paddingLen (8 * m.length) / 8 := by
    unfold paddingLen
    omega
  simp only [paddedMessage, padding, hzeros, List.append_assoc, Config.padMarker]

theorem paddedMessage_length (m : List Byte) : (paddedMessage m).length = 64 * ((m.length + 8) / 64 + 1) := by
  rw [paddedMessage_eq, List.length_append, padding_length]
  unfold paddingLen
  omega

namespace Absorbed
variable {m : List Byte} {s : State}

/-- The message stream says nothing of the host's stream. -/
theorem withPending (h : Absorbed m s) (p : List HostEvent) : Absorbed m { s with pending := p } :=
  ⟨h.notFaulted, h.notSpent, h.length, h.chain, h.rest⟩

theorem absorbBytes (h : Absorbed m s) (hwf : s.buffer.wf = true) (vs : List Byte)
    (hlen : (m ++ vs).length < 2 ^ 70) : Absorbed (m ++ vs) (absorbBytes vs s) := by
  induction vs generalizing m s with
  | nil => rwa [List.append_nil]
  | cons v vs ih =>
    rw [List.append_cons] at hlen ⊢
    have hnext : m.length + 1 < 2 ^ 70 := by
      rw [List.length_append, List.length_append, List.length_singleton] at hlen
      omega
    exact ih (h.absorbByte hwf v hnext) (absorbByte_wf hwf v) hlen

/-- The engine absorbs its padding as it does the message. -/
theorem absorbPadding (h : Absorbed m s) (hwf : s.buffer.wf = true) (hm : m.length < 2 ^ 61) :
    Absorbed (paddedMessage m) (Machine.absorbBytes (padding (totalBits s)) s) := by
  have hpad : m ++ padding (totalBits s) = paddedMessage m := by rw [totalBits_of_absorbed h, paddedMessage_eq]
  rw [← hpad]
  apply h.absorbBytes hwf
  rw [hpad, paddedMessage_length]
  omega

/-- The length of the message bounds `block_count` as `FINALIZE` requires (44_finalize.md R160). -/
theorem blockCount_lt (h : Absorbed m s) (hm : m.length < 2 ^ 61) : s.blockCount.toNat < Config.maxBlocks := by
  rw [h.blockCount_eq, Config.maxBlocks]
  omega

theorem finalizeMessage_blockCount (h : Absorbed m s) (hwf : s.buffer.wf = true) (hm : m.length < 2 ^ 61) :
    (finalizeMessage s).blockCount.toNat = (paddedMessage m).length / 64 :=
  (h.absorbPadding hwf hm).blockCount_eq

theorem digestOut_finalizeMessage (h : Absorbed m s) (hwf : s.buffer.wf = true) (hm : m.length < 2 ^ 61) :
    digestOut (finalizeMessage s) = some (messageDigest m) := by
  have hvalid : digestValid (finalizeMessage s) = true :=
    digestValid_iff.mpr ⟨finalizeMessage_finalized s, (finalizeMessage_fault s).trans h.notFaulted⟩
  have hchain : (finalizeMessage s).h = chainAfter (paddedMessage m) (finalizeMessage s).blockCount.toNat :=
    (h.absorbPadding hwf hm).chain
  rw [digestOut_of_valid hvalid, hchain, h.finalizeMessage_blockCount hwf hm, messageDigest]

end Absorbed

/-- Settles O50: every block of the padded message has been compressed, and its length is that of the blocks. -/
theorem finalizePresentsTheMessageDigest : Obligations.FinalizePresentsTheMessageDigest := by
  intro m s h hwf hm
  refine ⟨finalizeMessage s, execFinalize_of_active h.notFaulted h.notSpent (h.blockCount_lt hm),
    h.digestOut_finalizeMessage hwf hm, ?_, finalizeMessage_pending s⟩
  rw [h.finalizeMessage_blockCount hwf hm, paddedMessage_length, Nat.mul_div_cancel_left _ (by decide)]

end Sys2Proof.Machine
end

section
/-! SUPPORT. A run over the words of `HASH`: `INIT` and the `ABSORB`s leave an engine that has absorbed the message and has only
`FINALIZE` to perform (30_encoding.md R77, 44_finalize.md R168). -/

namespace Sys2Proof.Machine

theorem deliver_hashWords_pending (m : List Byte) (s : State) :
    (deliver (hashWords m) s).pending =
      .command (encode .init) :: ((absorbsWords m).map .command ++ [.command (encode .finalize)]) := by
  simp [deliver, hashWords]

/-- All words of `HASH` but the last. -/
theorem run_hashWords_absorbed {m : List Byte} {s : State} (hf : s.fault = false) (hm : m.length < 2 ^ 61) :
    ∃ u, run (m.length + 1) (deliver (hashWords m) s) = .next u ∧ Absorbed m u ∧ u.buffer.wf = true ∧
      u.pending = [.command (encode .finalize)] := by
  have hinit := (StepEffect.init (deliver_hashWords_pending m s) (decode_encode .init) hf).step_eq
  refine ⟨_, (run_succ hinit _).trans (run_absorbsWords rfl hf rfl), ?_, absorbBytes_wf rfl m, absorbBytes_pending m _⟩
  exact ((absorbed_nil_freshEngine hf).withPending _).absorbBytes rfl m (by rw [List.nil_append]; omega)

/-- The last word. -/
theorem step_finalize_of_absorbed {m : List Byte} {s : State} (h : Absorbed m s) (hm : m.length < 2 ^ 61)
    (hp : s.pending = [.command (encode .finalize)]) : step s = .next (finalizeMessage (deliver [] s)) :=
  (StepEffect.finalize hp (decode_encode .finalize) h.notFaulted h.notSpent (h.blockCount_lt hm)).step_eq

/-- Settles O51: `FINALIZE` takes the last word off the stream and presents the digest of what was absorbed. -/
theorem hashPresentsTheMessageDigest : Obligations.HashPresentsTheMessageDigest := by
  intro m s hf hm
  obtain ⟨u, hrun, h, hwf, hp⟩ := run_hashWords_absorbed hf hm
  refine ⟨finalizeMessage (deliver [] u), ?_, (h.withPending []).digestOut_finalizeMessage hwf hm,
    (finalizeMessage_fault _).trans h.notFaulted, cmdReady_iff.mpr (finalizeMessage_pending _)⟩
  rw [run_add hrun 1, run_succ (step_finalize_of_absorbed h hm hp), run_zero]

end Sys2Proof.Machine
end

section
/-! SUPPORT. Faults: which commands raise one, what its entry writes, and that only reset takes it back (60_exceptions.md R182 to
R187). -/

namespace Sys2Proof.Machine

section Outputs
variable {s : State}

theorem digestValid_of_fault (hf : s.fault = true) : digestValid s = false := by
  simp [digestValid, hf]

theorem digestOut_of_invalid (h : digestValid s = false) : digestOut s = none := by
  simp [digestOut, h]

end Outputs

/-- Of the effects, only the two raises set `fault`. -/
theorem StepEffect.eq_raise_of_fault_entry {s t : State} (h : StepEffect s t) (hf : s.fault = false) (ht : t.fault = true) :
    ∃ c, t = raise c { s with pending := s.pending.tail } := by
  cases h with
  | useAfterFinalize hp => exact ⟨.useAfterFinalize, by rw [hp, List.tail_cons]⟩
  | illegalCommand hp => exact ⟨.illegalCommand, by rw [hp, List.tail_cons]⟩
  | idle | dropped | reset | init | absorb | finalize => simp [hf] at ht

/-- On a faulted engine a step is a reset, or it keeps both fault registers. -/
theorem StepEffect.reset_or_keeps_fault {s t : State} (h : StepEffect s t) (hf : s.fault = true) :
    (t.fault = false ∧ ∃ rest, s.pending = .reset :: rest) ∨
    (t.fault = true ∧ t.faultCause = s.faultCause ∧ ¬∃ rest, s.pending = .reset :: rest) := by
  cases h with
  | reset hp => exact .inl ⟨rfl, _, hp⟩
  | idle hp | dropped hp => exact .inr ⟨hf, rfl, by simp [hp]⟩
  | init _ _ hf' | absorb _ _ hf' | finalize _ _ hf' | useAfterFinalize _ _ hf' | illegalCommand _ _ hf' =>
    cases hf.symm.trans hf'

/-- No command raises a fault on an ACTIVE engine (60_exceptions.md R184, the last case). -/
theorem fault_of_step_active {s t : State} {cmd : CmdWord} {i : Instr} {rest : List HostEvent}
    (hp : s.pending = .command cmd :: rest) (hd : decode cmd = .ok i) (hf : s.fault = false) (hz : s.finalized = false)
    (h : step s = .next t) : t.fault = false := by
  cases i with
  | init => rw [(StepEffect.init hp hd hf).eq_of_step h, freshEngine_fault, hf]
  | absorb v => rw [(StepEffect.absorb hp hd hf hz).eq_of_step h, absorbByte_fault, hf]
  | finalize => rw [eq_finalizeMessage_of_step hp hd hf hz h, finalizeMessage_fault, hf]

/-- Settles O16: each case of the order is one effect of a step, and on an ACTIVE engine none raises a fault. -/
theorem faultPriority : Obligations.FaultPriority := by
  refine fun s t cmd rest hp h => ⟨fun hf => ?_, fun hf ⟨e, hd⟩ => ?_, fun hf hd hz => ?_, fun hf hd => ?_,
    fun hf ⟨i, hd⟩ hz => fault_of_step_active hp hd hf hz h⟩
  · exact (StepEffect.dropped hp hf).eq_of_step h
  · rw [(StepEffect.illegalCommand hp hd hf).eq_of_step h]
    exact ⟨rfl, rfl⟩
  · rw [(StepEffect.useAfterFinalize hp hd hf hz).eq_of_step h]
    exact ⟨rfl, rfl⟩
  · rw [(StepEffect.init hp hd hf).eq_of_step h, freshEngine_fault, hf]

/-- Settles O17: a step that enters phase FAULTED is a raise, and a raise writes the fault registers only. -/
theorem faultEntryIsPrecise : Obligations.FaultEntryIsPrecise := by
  intro s t h hf ht
  have hinvalid := digestValid_of_fault ht
  obtain ⟨c, rfl⟩ := (step_eq_next_iff.mp h).eq_raise_of_fault_entry hf ht
  exact ⟨by cases c <;> simp [faultCode], rfl, phase_eq_faulted_iff.mpr ht, hinvalid, digestOut_of_invalid hinvalid⟩

/-- Settles O19: by `StepEffect.reset_or_keeps_fault`. -/
theorem onlyResetClearsAFault : Obligations.OnlyResetClearsAFault := by
  intro s t h hf
  obtain ⟨ht, hreset⟩ | ⟨ht, hcause, hno⟩ := (step_eq_next_iff.mp h).reset_or_keeps_fault hf
  · exact ⟨iff_of_true ht hreset, fun ht' => by simp [ht] at ht'⟩
  · exact ⟨iff_of_false (by simp [ht]) hno, fun _ => hcause⟩

/-- Settles O14: the effect of a reserved word in phases ACTIVE and SPENT. -/
theorem reservedWordRaisesIllegalCommand : Obligations.ReservedWordRaisesIllegalCommand := fun _ _ _ _ hp hd hf =>
  (StepEffect.illegalCommand hp hd hf).step_eq

/-- Settles O15: by the three commands' meanings on a spent engine. -/
theorem spentEngineFaultsOnUse : Obligations.SpentEngineFaultsOnUse := fun s hf hz =>
  ⟨execAbsorb_of_spent hf hz, execFinalize_of_spent hf hz, freshEngine s, execInit_of_ok hf, hf⟩

/-- Settles O18: by `step_of_fault`, which leaves the later events outstanding. -/
theorem faultedEngineDropsEveryCommand : Obligations.FaultedEngineDropsEveryCommand := fun _ _ _ hp hf =>
  ⟨step_of_fault hp hf, fun hrest => cmdReady_iff.mpr hrest⟩

end Sys2Proof.Machine
end

section
/-! SUPPORT. Completion: `FINALIZE` of a too long message is the only event without a next state (70_reset_and_hazards.md R206,
44_finalize.md R169). -/

namespace Sys2Proof.Machine

/-- Of the commands, only `FINALIZE` can fail to complete, and only on an ACTIVE engine at the bound of `block_count`. -/
theorem exec_completes_or_tooLong (i : Instr) (s : State) :
    (∃ t, exec i s = .next t) ∨
    (i = .finalize ∧ s.fault = false ∧ s.finalized = false ∧ Config.maxBlocks ≤ s.blockCount.toNat) := by
  cases i with
  | init => obtain ⟨-, h⟩ | ⟨-, h⟩ := execInit_cases s <;> exact .inl ⟨_, h⟩
  | absorb v => obtain ⟨-, h⟩ | ⟨-, -, h⟩ | ⟨-, -, h⟩ := execAbsorb_cases v s <;> exact .inl ⟨_, h⟩
  | finalize =>
    obtain ⟨-, h⟩ | ⟨-, -, h⟩ | ⟨-, -, -, h⟩ | ⟨hf, hz, hb, -⟩ := execFinalize_cases s
    · exact .inl ⟨_, h⟩
    · exact .inl ⟨_, h⟩
    · exact .inl ⟨_, h⟩
    · exact .inr ⟨rfl, hf, hz, hb⟩

theorem step_completes_or_tooLong (s : State) :
    (∃ t, step s = .next t) ∨
    ((∃ rest, s.pending = .command 0x300 :: rest) ∧ s.fault = false ∧ s.finalized = false ∧
      2 ^ 55 ≤ s.blockCount.toNat) := by
  obtain ⟨-, h⟩ | ⟨rest, -, h⟩ | ⟨cmd, i, rest, hp, hd, h⟩ | ⟨cmd, e, rest, -, -, h⟩ := step_cases s
  · exact .inl ⟨_, h⟩
  · exact .inl ⟨_, h⟩
  · obtain ⟨t, ht⟩ | ⟨rfl, hf, hz, hb⟩ := exec_completes_or_tooLong i { s with pending := rest }
    · exact .inl ⟨t, h.trans ht⟩
    · exact .inr ⟨⟨rest, pending_eq_encode hp hd⟩, hf, hz, hb⟩
  · obtain ⟨-, hx⟩ | ⟨-, hx⟩ := execReserved_cases { s with pending := rest } <;> exact .inl ⟨_, h.trans hx⟩

/-- Settles O10: the excepted step is refused by `execFinalize_of_tooLong`, and every other completes. -/
theorem everyStepCompletesButOne : Obligations.EveryStepCompletesButOne := by
  refine fun s => ⟨fun ⟨⟨rest, hp⟩, hf, hz, hb⟩ => ?_, (step_completes_or_tooLong s).resolve_right⟩
  exact (step_decoded hp (decode_encode .finalize)).trans (execFinalize_of_tooLong hf hz hb)

end Sys2Proof.Machine
end

section
/-! SUPPORT. Noninterference of the data: every operation of a step takes two states alike in control to two such states, whatever
bytes they hold or absorb (70_reset_and_hazards.md R207, R208). -/

namespace Sys2Proof.Machine

namespace SameControl
variable {s t : State}

/-- The host's stream is not part of control. -/
theorem withPending (h : SameControl s t) (p q : List HostEvent) :
    SameControl { s with pending := p } { t with pending := q } :=
  ⟨h.bufferLen, h.blockCount, h.finalized, h.fault, h.faultCause⟩

theorem freshEngine (h : SameControl s t) : SameControl (freshEngine s) (freshEngine t) :=
  ⟨rfl, rfl, rfl, h.fault, h.faultCause⟩

theorem resetEngine (s t : State) : SameControl (resetEngine s) (resetEngine t) :=
  ⟨rfl, rfl, rfl, rfl, rfl⟩

theorem raise (h : SameControl s t) (c : FaultCause) : SameControl (raise c s) (raise c t) :=
  { h with fault := rfl, faultCause := rfl }

theorem withFinalized (h : SameControl s t) : SameControl { s with finalized := true } { t with finalized := true } :=
  { h with finalized := rfl }

/-- The bytes stored may differ: whether the block is complete depends on `buffer_len` only. -/
theorem absorbByte (h : SameControl s t) (v w : Byte) : SameControl (absorbByte v s) (absorbByte w t) := by
  obtain ⟨hn, e⟩ | ⟨hn, e⟩ := absorbByte_cases v s
  · rw [e, absorbByte_partial (h.bufferLen ▸ hn)]
    exact { h with bufferLen := congrArg (· + 1) h.bufferLen }
  · rw [e, absorbByte_full (h.bufferLen ▸ hn)]
    exact { h with bufferLen := rfl, blockCount := congrArg (· + 1) h.blockCount }

theorem absorbBytes (h : SameControl s t) (vs : List Byte) : SameControl (absorbBytes vs s) (absorbBytes vs t) := by
  induction vs generalizing s t with
  | nil => exact h
  | cons v vs ih => exact ih (h.absorbByte v v)

/-- The padding is the same in both, since it depends on the message's length only. -/
theorem finalizeMessage (h : SameControl s t) : SameControl (finalizeMessage s) (finalizeMessage t) := by
  have hlen : totalBits t = totalBits s := by rw [totalBits, totalBits, h.blockCount, h.bufferLen]
  unfold Machine.finalizeMessage
  rw [hlen]
  exact (h.absorbBytes _).withFinalized

/-- On the same event the second state takes the effect that the first one takes. -/
theorem step_of_same_event {s' : State} {e : HostEvent} {srest trest : List HostEvent} (h : SameControl s t)
    (hs : s.pending = e :: srest) (ht : t.pending = e :: trest) (he : StepEffect s s') :
    ∃ t', StepEffect t t' ∧ SameControl s' t' := by
  have hhead {e' : HostEvent} {rest : List HostEvent} (hp : s.pending = e' :: rest) : t.pending = e' :: trest := by
    cases hs.symm.trans hp
    exact ht
  cases he with
  | idle hp => cases hs.symm.trans hp
  | reset hp => exact ⟨_, .reset (hhead hp), .resetEngine _ _⟩
  | dropped hp hf => exact ⟨_, .dropped (hhead hp) (h.fault ▸ hf), h.withPending _ _⟩
  | init hp hd hf => exact ⟨_, .init (hhead hp) hd (h.fault ▸ hf), (h.withPending _ _).freshEngine⟩
  | absorb hp hd hf hz =>
    exact ⟨_, .absorb (hhead hp) hd (h.fault ▸ hf) (h.finalized ▸ hz), (h.withPending _ _).absorbByte _ _⟩
  | finalize hp hd hf hz hb =>
    exact ⟨_, .finalize (hhead hp) hd (h.fault ▸ hf) (h.finalized ▸ hz) (h.blockCount ▸ hb),
      (h.withPending _ _).finalizeMessage⟩
  | useAfterFinalize hp hd hf hz =>
    exact ⟨_, .useAfterFinalize (hhead hp) hd (h.fault ▸ hf) (h.finalized ▸ hz), (h.withPending _ _).raise _⟩
  | illegalCommand hp hd hf =>
    exact ⟨_, .illegalCommand (hhead hp) hd (h.fault ▸ hf), (h.withPending _ _).raise _⟩

/-- `ABSORB` of any two bytes is dropped, faults, or stores its byte, in both states alike: the phase decides. -/
theorem step_of_absorbs {v w : Byte} {srest trest : List HostEvent} (h : SameControl s t)
    (hs : s.pending = .command (encode (.absorb v)) :: srest) (ht : t.pending = .command (encode (.absorb w)) :: trest) :
    ∃ s' t', StepEffect s s' ∧ StepEffect t t' ∧ SameControl s' t' := by
  have hv := decode_encode (.absorb v)
  have hw := decode_encode (.absorb w)
  cases hf : s.fault with
  | true => exact ⟨_, _, .dropped hs hf, .dropped ht (h.fault ▸ hf), h.withPending _ _⟩
  | false =>
    cases hz : s.finalized with
    | true =>
      exact ⟨_, _, .useAfterFinalize hs (.inl ⟨v, hv⟩) hf hz,
        .useAfterFinalize ht (.inl ⟨w, hw⟩) (h.fault ▸ hf) (h.finalized ▸ hz), (h.withPending _ _).raise _⟩
    | false =>
      exact ⟨_, _, .absorb hs hv hf hz, .absorb ht hw (h.fault ▸ hf) (h.finalized ▸ hz),
        (h.withPending _ _).absorbByte v w⟩

end SameControl

/-- Settles O45: for the same event, and for two `ABSORB`s. -/
theorem controlDoesNotDependOnData : Obligations.ControlDoesNotDependOnData := by
  intro s t s' e f srest trest h hs ht hevents hstep
  obtain rfl | ⟨v, w, rfl, rfl⟩ := hevents
  · obtain ⟨t', he, h'⟩ := h.step_of_same_event hs ht (step_eq_next_iff.mp hstep)
    exact ⟨t', he.step_eq, h'⟩
  · obtain ⟨u, t', hu, he, h'⟩ := h.step_of_absorbs hs ht
    exact ⟨t', he.step_eq, hu.eq_of_step hstep ▸ h'⟩

end Sys2Proof.Machine
end

section
/-! SUPPORT. Reset, as an event of the stream and at the ports (70_reset_and_hazards.md R200, R202). -/

namespace Sys2Proof.Machine

/-- Nothing of the engine outlives reset; the events still to come are the host's. -/
theorem resetEngine_eq_reset (s : State) : resetEngine s = { State.reset with pending := s.pending } := rfl

theorem acceptPorts_of_rst {p : InPorts} (hrst : p.rst = true) (s : State) :
    acceptPorts p s = { s with pending := [.reset] } := by
  simp [acceptPorts, hrst]

/-- Settles O12: a step on a reset event is `resetEngine`, and `rst` leaves only that event outstanding. -/
theorem resetGivesAFreshEngine : Obligations.ResetGivesAFreshEngine := by
  refine ⟨fun s rest hp => ⟨_, step_reset hp, fun _ _ => rfl, memRead1_clear, rfl, rfl, rfl, rfl, rfl, rfl,
    digestOut_of_invalid rfl, resetEngine_eq_reset _⟩, fun p s hrst => ?_⟩
  rw [acceptPorts_of_rst hrst]
  exact step_reset rfl

/-- Settles O13: `INIT` makes a fresh engine, which the reset one already is. -/
theorem initAfterResetChangesNothing : Obligations.InitAfterResetChangesNothing := fun pending =>
  execInit_of_ok (s := { State.reset with pending := pending }) rfl

end Sys2Proof.Machine
end
